-- ==== Sys2Proof/Word.lean ====
section
/-! DEFINITION. The widths of the machine: the 16-bit word, the byte, the 4-bit register index, the 8-bit immediate
(00_scope R6: XLEN = 16, WORD = 2 bytes, OPBITS = 4, IMMBITS = 8; 30_encoding R82 to R86). -/

namespace Sys2Proof

/-- A register value, an address or an instruction word: XLEN = 16 bits (00_scope R6, R8). -/
abbrev Word := BitVec 16

/-- A byte of memory (20_memory R50). -/
abbrev Byte := BitVec 8

/-- A register field of an instruction word: 4 bits, so always an index in [0,16) (30_encoding R83 to R85). -/
abbrev Reg := BitVec 4

end Sys2Proof
end

