-- ==== Sys2Proof/Syntax.lean ====
section
/-! DEFINITION. The instructions: one constructor per row of spec/opcode_table.json, with every field of the row.
Ignored fields (30_encoding R97) are kept in the syntax, so that no bit of a word is lost by decoding; no meaning
reads them (log entry 10). -/

namespace Sys2Proof

/-- The sixteen rows of the opcode table (30_encoding R95). `rd`, `ra` are the first register field, `rs` the second,
`rt` the third, `imm8` the low byte. -/
inductive Instr where
  /-- ADD (41_alu_register R131), form R. -/
  | add (rd rs rt : Reg)
  /-- SUB (R132), form R. -/
  | sub (rd rs rt : Reg)
  /-- AND (R133), form R. -/
  | and (rd rs rt : Reg)
  /-- OR (R134), form R. -/
  | or (rd rs rt : Reg)
  /-- XOR (R135), form R. -/
  | xor (rd rs rt : Reg)
  /-- SLL (R136), form R. -/
  | sll (rd rs rt : Reg)
  /-- SRL (R137), form R. -/
  | srl (rd rs rt : Reg)
  /-- ADDI (42_alu_immediate R151), form I. -/
  | addi (rd : Reg) (imm8 : BitVec 8)
  /-- SUBI (R152), form I. -/
  | subi (rd : Reg) (imm8 : BitVec 8)
  /-- LW (43_load_store R161), form M: `rs` and `imm8` overlap in the word (30_encoding R92). -/
  | lw (rd rs : Reg) (imm8 : BitVec 8)
  /-- SW (R162), form M: `rs` and `imm8` overlap in the word (30_encoding R92). -/
  | sw (ra rs : Reg) (imm8 : BitVec 8)
  /-- BZ (44_control_transfer R170), form I. -/
  | bz (ra : Reg) (imm8 : BitVec 8)
  /-- JR (R171), form J: the low byte is ignored. -/
  | jr (ra : Reg) (ignored : BitVec 8)
  /-- HALT (R172), form Z: the low twelve bits are ignored. -/
  | halt (ignored : BitVec 12)
  /-- The unassigned opcode 0xE (R173). -/
  | unassignedE (ignored : BitVec 12)
  /-- The unassigned opcode 0xF (R173). -/
  | unassignedF (ignored : BitVec 12)
deriving DecidableEq, Repr

namespace Instr

/-- The opcode nibble of the row: `match` shifted right by 12 (30_encoding R95). -/
def opcode : Instr → BitVec 4
  | .add _ _ _ => 0x0
  | .sub _ _ _ => 0x1
  | .and _ _ _ => 0x2
  | .or _ _ _ => 0x3
  | .xor _ _ _ => 0x4
  | .sll _ _ _ => 0x5
  | .srl _ _ _ => 0x6
  | .addi _ _ => 0x7
  | .subi _ _ => 0x8
  | .lw _ _ _ => 0x9
  | .sw _ _ _ => 0xA
  | .bz _ _ => 0xB
  | .jr _ _ => 0xC
  | .halt _ => 0xD
  | .unassignedE _ => 0xE
  | .unassignedF _ => 0xF

end Instr
end Sys2Proof
end

