-- ==== Sys2Proof/WellFormed.lean ====
section
/-! DEFINITION. Which terms of `Instr` are instructions of the machine. Every operand width is in the type; the one
relation between fields is form M's overlap: the base register's index IS the high nibble of the offset byte
(30_encoding R87, R92). -/

namespace Sys2Proof.Instr

/-- The base index agrees with the high nibble of the offset byte (30_encoding R92). -/
abbrev baseAgrees (rs : Reg) (imm8 : BitVec 8) : Prop := imm8.extractLsb' 4 4 = rs

/-- The check, one per form: LW and SW must have `baseAgrees`; every other term is an instruction. -/
abbrev WellFormed : Instr → Prop
  | .lw _ rs imm8 => baseAgrees rs imm8
  | .sw _ rs imm8 => baseAgrees rs imm8
  | .add _ _ _ | .sub _ _ _ | .and _ _ _ | .or _ _ _ | .xor _ _ _ | .sll _ _ _ | .srl _ _ _ => True
  | .addi _ _ | .subi _ _ | .bz _ _ | .jr _ _ => True
  | .halt _ | .unassignedE _ | .unassignedF _ => True

end Sys2Proof.Instr
end

