-- ==== Sys2Proof/Decode.lean ====
section
/-! DEFINITION. The instruction decoder (30_encoding R81 to R89, R95): from a word to its five fields, from the fields
to the instruction, from bytes in memory order to both; and the encoder, written from the same field layout. -/

namespace Sys2Proof

/-- The five values the decoder produces for every word (30_encoding R81, R87). -/
structure Fields where
  /-- `w[15:12]` (R82). -/
  opcode : BitVec 4
  /-- `w[11:8]` (R83). -/
  first : Reg
  /-- `w[7:4]` (R84). -/
  rs : Reg
  /-- `w[3:0]` (R85). -/
  rt : Reg
  /-- `w[7:0]` (R86). -/
  imm8 : BitVec 8
deriving DecidableEq, Repr

/-- Cuts a word into its five fields (30_encoding R82 to R86). -/
def cutFields (w : Word) : Fields where
  opcode := w.extractLsb' 12 4
  first := w.extractLsb' 8 4
  rs := w.extractLsb' 4 4
  rt := w.extractLsb' 0 4
  imm8 := w.extractLsb' 0 8

/-- The opcode map (30_encoding R95, forms R89). The last arm is reached by opcode 0xF alone, the other fifteen values
of the nibble being named above it. -/
def instrOfFields (f : Fields) : Instr :=
  match f.opcode with
  | 0x0#4 => .add f.first f.rs f.rt
  | 0x1#4 => .sub f.first f.rs f.rt
  | 0x2#4 => .and f.first f.rs f.rt
  | 0x3#4 => .or f.first f.rs f.rt
  | 0x4#4 => .xor f.first f.rs f.rt
  | 0x5#4 => .sll f.first f.rs f.rt
  | 0x6#4 => .srl f.first f.rs f.rt
  | 0x7#4 => .addi f.first f.imm8
  | 0x8#4 => .subi f.first f.imm8
  | 0x9#4 => .lw f.first f.rs f.imm8
  | 0xA#4 => .sw f.first f.rs f.imm8
  | 0xB#4 => .bz f.first f.imm8
  | 0xC#4 => .jr f.first f.imm8
  | 0xD#4 => .halt (f.first ++ f.imm8)
  | 0xE#4 => .unassignedE (f.first ++ f.imm8)
  | _ => .unassignedF (f.first ++ f.imm8)

/-- The decoder: total over all 65536 words, it never fails (30_encoding R81). -/
def decodeWord (w : Word) : Instr := instrOfFields (cutFields w)

/-- Why no instruction can be read from a byte sequence: it holds fewer than the two bytes of one (30_encoding R80). -/
inductive DecodeError where
  /-- Fewer than two bytes are left. Safe: a fetch always brings two. -/
  | truncated
deriving DecidableEq, Repr

/-- The two bytes of a word in memory order, joined: big-endian (20_memory R53, R54). -/
def wordOfBytes (hi lo : Byte) : Word := hi ++ lo

/-- The byte of a word that stands at the lower address (20_memory R53). -/
def highByte (w : Word) : Byte := w.extractLsb' 8 8

/-- The byte of a word that stands at the higher address (20_memory R53). -/
def lowByte (w : Word) : Byte := w.extractLsb' 0 8

/-- Reads one instruction off a byte sequence in memory order (30_encoding R80, R102), with the bytes left over. -/
def decode : List Byte → Except DecodeError (Instr × List Byte)
  | hi :: lo :: rest => .ok (decodeWord (wordOfBytes hi lo), rest)
  | [_] => .error .truncated
  | [] => .error .truncated

/-- The word of an instruction (30_encoding R95, R100, layout R82 to R86); for LW and SW the offset byte carries the
base index in its high nibble (R92). -/
def encode : Instr → Word
  | .add rd rs rt => 0x0#4 ++ rd ++ rs ++ rt
  | .sub rd rs rt => 0x1#4 ++ rd ++ rs ++ rt
  | .and rd rs rt => 0x2#4 ++ rd ++ rs ++ rt
  | .or rd rs rt => 0x3#4 ++ rd ++ rs ++ rt
  | .xor rd rs rt => 0x4#4 ++ rd ++ rs ++ rt
  | .sll rd rs rt => 0x5#4 ++ rd ++ rs ++ rt
  | .srl rd rs rt => 0x6#4 ++ rd ++ rs ++ rt
  | .addi rd imm8 => 0x7#4 ++ rd ++ imm8
  | .subi rd imm8 => 0x8#4 ++ rd ++ imm8
  | .lw rd _ imm8 => 0x9#4 ++ rd ++ imm8
  | .sw ra _ imm8 => 0xA#4 ++ ra ++ imm8
  | .bz ra imm8 => 0xB#4 ++ ra ++ imm8
  | .jr ra ignored => 0xC#4 ++ ra ++ ignored
  | .halt ignored => 0xD#4 ++ ignored
  | .unassignedE ignored => 0xE#4 ++ ignored
  | .unassignedF ignored => 0xF#4 ++ ignored

/-- An instruction's two bytes in memory order (30_encoding R102). -/
def encodeBytes (i : Instr) : List Byte := [highByte (encode i), lowByte (encode i)]

/-- The instruction word that the low `nbits` bits of `w` give, every bit above them 0. -/
def tableWord (nbits w : Nat) : Word := BitVec.ofNat 16 (w % 2 ^ nbits)

/-- What the decoder reads from a table row's word, laid out in memory as the hardware stores it. -/
def decodeTableWord (nbits w : Nat) : Option Instr :=
  match decode [highByte (tableWord nbits w), lowByte (tableWord nbits w)] with
  | .ok (i, _) => some i
  | .error _ => none

end Sys2Proof
end

