-- ==== Sys2Proof/Config.lean ====
section
/-! DEFINITION. The implementation parameters of 00_scope R6, each at the value this hardware takes, and the one
parameter the spec leaves OPEN (SNAP_WINDOW) as an opaque constant. -/

namespace Sys2Proof.Config

/-- `CAP`: memory capacity in bytes (00_scope R6, 20_memory R50). -/
abbrev cap : Nat := 4096

/-- `NREG`: number of register slots (00_scope R6, 10_state R21). -/
abbrev nreg : Nat := 16

/-- `PC_IDX`: the slot that is the program counter (00_scope R6; the spec's decision D2). -/
abbrev pcIdx : Reg := 15

/-- `SP_IDX`: the slot that is the stack pointer (00_scope R6; the spec's decision D2). -/
abbrev spIdx : Reg := 14

/-- `FL_IDX`: the slot that is the flags register (00_scope R6; the spec's decision D2). -/
abbrev flIdx : Reg := 13

/-- `SP_RESET`: reset value of the stack pointer, the top of memory (00_scope R6; the spec's decision D12). -/
abbrev spReset : Word := 0x1000

/-- `ILEN` in bytes: what a step adds to the program counter (00_scope R6, 40_step_cycle R114). -/
abbrev ilenBytes : Word := 2

/-- What an address with no entry in the memory list reads as: the reset contents, 0x00 (10_state R39). -/
abbrev unlistedByte : Byte := 0

/-- `SNAP_WINDOW`: how many bytes a snapshot shows, 0 to CAP. The spec leaves it OPEN (00_scope R6, D20; log entry 7),
so it has no value here. -/
opaque snapWindow : Fin (cap + 1)

end Sys2Proof.Config
end

