-- ==== Sys2Proof/Machine/State.lean ====
section
/-! DEFINITION. The state of the machine as plain data, the reasons a step can stop, and the state after reset.
The spec's own state is `regs`, `mem` and `mode` (10_state R20); the other four fields are the MODEL's: three outputs
the spec describes as events and the open order of the arbiter's grants as an input (log entries 1, 4, 5, 6). -/

namespace Sys2Proof.Machine

/-- The run-mode (10_state R33). -/
inductive Mode where
  | paused
  | running
  | halted
deriving DecidableEq, Repr

/-- Memory: (address, byte) pairs, addresses strictly rising, none equal to what an unlisted address reads as. -/
abbrev Memory := List Host.Cell

/-- The faults of the block with the report each one sends (60_exceptions R220, last column). The spec gives every one
of them a state to go on from (R221 to R225: halted, with a report), so a model step TAKES it: the fault is the payload of
`State.report`, and no step of this model answers `Host.Outcome.fault` (log entry 8; safe). -/
inductive Fault where
  /-- BoundsFault at fetch: raised by every step that begins with the program counter above 4094 (R223). Safe. -/
  | boundsFetch (pc0 : Word)
  /-- DecodeFault: raised by the unassigned opcodes 0xE and 0xF (R222). Safe. -/
  | decode (pc0 w : Word)
  /-- BoundsFault at a data access: raised by LW and SW when the effective address is above 4094 (R224). Safe. -/
  | boundsData (pc0 w ea : Word)
  /-- IndexFault: raised by the register file's port on an index of 16 or more; no instruction can raise it (R225). Safe. -/
  | index (idx : Nat)
deriving DecidableEq, Repr

/-- Why a step has no meaning. No arm of this model uses it: every instruction has its meaning. -/
inductive Refusal where
  /-- An instruction with no meaning yet, by its mnemonic; raised by nothing. Safe. -/
  | notModelled (mnemonic : String)
deriving DecidableEq, Repr

/-- What `get_snapshot` returns and what is handed to the broadcast after a step (45_control R205). The register map is
by slot number; the memory window is `M[0]` to `M[SNAP_WINDOW - 1]`. -/
structure Snapshot where
  registers : Vector Word Config.nreg
  running : Bool
  pc : Word
  flags : Word
  mode : Mode
  memoryWindow : List Byte
deriving DecidableEq, Repr

/-- What the host is answered (45_control R195 to R205, 60_exceptions R226). -/
inductive Answer where
  /-- The command was carried out. -/
  | done
  /-- `step_once` while Halted (R198). -/
  | stepRejected
  /-- `start_run` while Halted (R195). -/
  | runRejected
  /-- A load that would pass the end of memory (R201). -/
  | loadRejected
  /-- The value of `get_snapshot` (R205). -/
  | snapshot (sn : Snapshot)
deriving DecidableEq, Repr

/-- The requests the arbiter grants (45_control R190, R191, R195 to R205). -/
inductive Request where
  | tick
  | startRun
  | pause
  | stepOnce
  | reset
  | loadProgram (bytes : List Byte) (base : Word)
  | getSnapshot
deriving DecidableEq, Repr

/-- The machine's state. -/
structure State where
  /-- `x[0]` to `x[15]` (10_state R21), the program counter, stack pointer and flags register among them. -/
  regs : Vector Word Config.nreg
  /-- `M` (20_memory R50). -/
  mem : Memory
  /-- `mode` (10_state R33). -/
  mode : Mode
  /-- The MODEL's own: the last fault report since reset or an accepted load (60_exceptions R229). -/
  report : Option Fault
  /-- The MODEL's own: what the host's latest command was answered (60_exceptions R226, 45_control R205). -/
  answer : Option Answer
  /-- The MODEL's own: the latest snapshot handed to the broadcast (40_step_cycle R122). -/
  broadcast : Option Snapshot
  /-- The MODEL's own: the requests granted next, in the order of the grants, which the spec leaves open and nothing here
  constrains (45_control R192, 10_state R41). An empty list stands for the next tick of the clock driver (R191). -/
  schedule : List Request
deriving DecidableEq, Repr

/-- The state at creation and after `reset` (10_state R39, 70_reset R251). Every value of `regs`, `mem` and `mode` is the
spec's; the four fields of the model's own are empty (log entries 1, 4, 5, 6). -/
def State.reset : State where
  regs := (Vector.replicate Config.nreg 0).set 14 Config.spReset
  mem := []
  mode := .paused
  report := none
  answer := none
  broadcast := none
  schedule := []

end Sys2Proof.Machine
end

