-- ==== Sys2Proof/Machine/Ops.lean ====
section
/-! DEFINITION. The named operations over memory and registers (92_eei_decisions, table of interfaces), raising a fault
(60_exceptions R221), and the snapshot. The spec has no return from a fault (R233): the two ways out of Halted are the
host's `reset` and `load_program`, in Machine/Control.lean. -/

namespace Sys2Proof.Machine

/-! ### Memory -/

/-- The byte at an address of the list; an address without an entry holds the reset contents (10_state R39, R40). -/
def Memory.get : Memory → Nat → Byte
  | [], _ => Config.unlistedByte
  | c :: m, a => if a = c.1 then c.2 else Memory.get m a

/-- Puts an entry at its place in the rising list, over an entry of the same address. -/
def Memory.insert : Memory → Nat → Byte → Memory
  | [], a, v => [(a, v)]
  | c :: m, a, v =>
    if a < c.1 then (a, v) :: c :: m
    else if a = c.1 then (a, v) :: m
    else c :: Memory.insert m a v

/-- `M[a] <- v`, keeping the canonical form: writing what an unlisted address reads as removes the entry. -/
def Memory.set (m : Memory) (a : Nat) (v : Byte) : Memory :=
  if v = Config.unlistedByte then m.filter (fun c => c.1 != a) else Memory.insert m a v

/-- The canonical form: addresses strictly rising and inside the memory, no entry equal to what an unlisted address
reads as. -/
abbrev Memory.wf (m : Memory) : Prop :=
  m.Pairwise (fun c d => c.1 < d.1) ∧ ∀ c ∈ m, c.1 < Config.cap ∧ c.2 ≠ Config.unlistedByte

/-- `read_byte(a)`; none is BoundsFault (20_memory R51, R55). -/
def Memory.readByte (m : Memory) (a : Word) : Option Byte :=
  if a.toNat ≤ Config.cap - 1 then some (m.get a.toNat) else none

/-- `write_byte(a, v)`; none is BoundsFault, nothing written (20_memory R56). -/
def Memory.writeByte (m : Memory) (a : Word) (v : Byte) : Option Memory :=
  if a.toNat ≤ Config.cap - 1 then some (m.set a.toNat v) else none

/-- `read_word(a)`, big-endian; none is BoundsFault (20_memory R53, R57). -/
def Memory.readWord (m : Memory) (a : Word) : Option Word :=
  if a.toNat ≤ Config.cap - 2 then some (wordOfBytes (m.get a.toNat) (m.get (a.toNat + 1))) else none

/-- `write_word(a, v)`, big-endian; none is BoundsFault, neither byte written (20_memory R58). -/
def Memory.writeWord (m : Memory) (a : Word) (v : Word) : Option Memory :=
  if a.toNat ≤ Config.cap - 2 then some ((m.set a.toNat (highByte v)).set (a.toNat + 1) (lowByte v)) else none

/-- Copies a byte sequence into consecutive addresses, ascending (45_control R200, R208). -/
def Memory.storeBytes : Memory → Nat → List Byte → Memory
  | m, _, [] => m
  | m, a, b :: bs => Memory.storeBytes (m.set a b) (a + 1) bs

/-- The `n` bytes from an address on, in ascending order. -/
def Memory.window (m : Memory) (n : Nat) : List Byte := (List.range n).map m.get

/-! ### The register file -/

/-- `x[i]`: read of a slot (10_state R21). -/
def State.x (s : State) (i : Reg) : Word := s.regs[i.toNat]'i.isLt

/-- `x[i] <- v`: all 16 bits stored, no other slot changed (10_state R21). -/
def State.setX (s : State) (i : Reg) (v : Word) : State := { s with regs := s.regs.set i.toNat v i.isLt }

/-- `pc`, slot 15 (10_state R26). -/
def State.pc (s : State) : Word := s.x Config.pcIdx

/-- `FL`, slot 13 (10_state R30). -/
def State.fl (s : State) : Word := s.x Config.flIdx

/-- `SP`, slot 14 (10_state R29). -/
def State.sp (s : State) : Word := s.x Config.spIdx

/-- `x[15] <- x[15] + 2`, before anything of the instruction executes (40_step_cycle R114). -/
def State.advance (s : State) : State := s.setX Config.pcIdx (s.pc + Config.ilenBytes)

/-- `pc0`, the address the executing instruction was fetched from: slot 15 holds `pc0 + 2` while it executes and has not
written it (00_scope R12, 10_state R26; log entry 9). -/
def State.fetchedFrom (s : State) : Word := s.pc - Config.ilenBytes

/-! ### Faults -/

/-- `raise <Fault>(info)`: halt and report; nothing is saved and no handler runs (60_exceptions R221, R232). -/
def State.raise (s : State) (f : Fault) : State := { s with mode := .halted, report := some f }

/-- The register file's read port, for an index that need not be a field: IndexFault at 16 or more (10_state R25). -/
def State.getRegister (s : State) (idx : Nat) : Except Fault Word :=
  if idx < Config.nreg then .ok (s.x (BitVec.ofNat 4 idx)) else .error (.index idx)

/-- The register file's write port: IndexFault at 16 or more, no slot touched (10_state R25, 60_exceptions R225). -/
def State.setRegister (s : State) (idx : Nat) (v : Word) : Except Fault State :=
  if idx < Config.nreg then .ok (s.setX (BitVec.ofNat 4 idx) v) else .error (.index idx)

/-- What the engine does with a port's answer: on IndexFault it halts and reports (60_exceptions R225). -/
def State.orRaise (s : State) : Except Fault State → State
  | .ok t => t
  | .error f => s.raise f

/-! ### Outputs -/

/-- `running`, derived from the mode (10_state R34). -/
def State.running (s : State) : Bool := s.mode == .running

/-- The snapshot of a state (45_control R205). -/
def State.snapshot (s : State) : Snapshot where
  registers := s.regs
  running := s.running
  pc := s.pc
  flags := s.fl
  mode := s.mode
  memoryWindow := s.mem.window Config.snapWindow.val

/-- Hands the state's snapshot to the broadcast, at the end of a step and inside its grant (40_step_cycle R110 line 8,
R122). -/
def State.handOver (s : State) : State := { s with broadcast := some s.snapshot }

/-- Answers the host's command (60_exceptions R226). -/
def State.answerWith (s : State) (a : Answer) : State := { s with answer := some a }

end Sys2Proof.Machine
end

