-- ==== Sys2Proof/Machine/Flags.lean ====
section
/-! DEFINITION. The flags register's two condition bits and their update (10_state R30, 40_step_cycle R118). -/

namespace Sys2Proof.Machine

/-- Z of a result (40_step_cycle R118). -/
def zBit (r : Word) : Word := if r = 0 then 1 else 0

/-- N of a result: its bit 15 (40_step_cycle R118). -/
def nBit (r : Word) : Word := if r.getLsbD 15 then 1 else 0

/-- The flags register after an update from result `r`: `(FL & 0xFFFC) | (N * 2) | Z` (40_step_cycle R118). -/
def flagsAfter (fl r : Word) : Word := (fl &&& 0xFFFC) ||| (nBit r * 2) ||| zBit r

/-- `SetZN(r)` (40_step_cycle R118). -/
def State.setZN (s : State) (r : Word) : State := s.setX Config.flIdx (flagsAfter s.fl r)

/-- The two writes of an ALU-class operation in their order: the result, then the flags (40_step_cycle R119). -/
def State.aluWrite (s : State) (rd : Reg) (r : Word) : State := (s.setX rd r).setZN r

end Sys2Proof.Machine
end

