-- ==== Sys2Proof/Machine/Operands.lean ====
section
/-! DEFINITION. The operand forms and the functions of the ALU: sign extension, effective address, branch target,
the nine results. -/

namespace Sys2Proof.Machine

/-- `sext_16(imm8)`: sign extension to 16 bits (30_encoding R88). -/
def sext16 (imm8 : BitVec 8) : Word := imm8.signExtend 16

/-- The effective address of LW and SW: a 16-bit sum of the base register and the offset (43_load_store R160). -/
def effectiveAddress (s : State) (rs : Reg) (imm8 : BitVec 8) : Word := s.x rs + sext16 imm8

/-- The target of a taken BZ: bytes, unscaled, from the advanced program counter (44_control_transfer R170). -/
def branchTarget (s : State) (imm8 : BitVec 8) : Word := s.pc + sext16 imm8

/-- ADD, ADDI: the sum modulo 65536 (41 R131, 42 R151). -/
def aluAdd (a b : Word) : Word := a + b

/-- SUB, SUBI: the difference modulo 65536, the first operand the minuend (41 R132, 42 R152). -/
def aluSub (a b : Word) : Word := a - b

/-- AND (41 R133). -/
def aluAnd (a b : Word) : Word := a &&& b

/-- OR (41 R134). -/
def aluOr (a b : Word) : Word := a ||| b

/-- XOR (41 R135). -/
def aluXor (a b : Word) : Word := a ^^^ b

/-- SLL: the amount is the whole unsigned second operand; 16 and more give 0 (41 R136). -/
def aluSll (a b : Word) : Word := if b.toNat ≤ 15 then a <<< b.toNat else 0

/-- SRL: logical, the amount is the whole unsigned second operand; 16 and more give 0 (41 R137). -/
def aluSrl (a b : Word) : Word := if b.toNat ≤ 15 then a >>> b.toNat else 0

end Sys2Proof.Machine
end

