-- ==== Sys2Proof/Machine/AluImmediate.lean ====
section
/-! DEFINITION. The register-immediate ALU instructions (42_alu_immediate R150 to R152): the one register field is both
source and destination, the immediate is sign-extended. -/

namespace Sys2Proof.Machine

/-- ADDI (R151). -/
def execAddi (rd : Reg) (imm8 : BitVec 8) (s : State) : Host.Outcome State Fault Refusal :=
  .next (s.aluWrite rd (aluAdd (s.x rd) (sext16 imm8)))

/-- SUBI (R152): the sign-extended immediate is the subtrahend. -/
def execSubi (rd : Reg) (imm8 : BitVec 8) (s : State) : Host.Outcome State Fault Refusal :=
  .next (s.aluWrite rd (aluSub (s.x rd) (sext16 imm8)))

end Sys2Proof.Machine
end

