-- ==== Sys2Proof/Machine/AluRegister.lean ====
section
/-! DEFINITION. The register-register ALU instructions (41_alu_register R130 to R137): both sources are read before the
result is written, then the flags. -/

namespace Sys2Proof.Machine

/-- ADD (R131). -/
def execAdd (rd rs rt : Reg) (s : State) : Host.Outcome State Fault Refusal :=
  .next (s.aluWrite rd (aluAdd (s.x rs) (s.x rt)))

/-- SUB (R132). -/
def execSub (rd rs rt : Reg) (s : State) : Host.Outcome State Fault Refusal :=
  .next (s.aluWrite rd (aluSub (s.x rs) (s.x rt)))

/-- AND (R133). -/
def execAnd (rd rs rt : Reg) (s : State) : Host.Outcome State Fault Refusal :=
  .next (s.aluWrite rd (aluAnd (s.x rs) (s.x rt)))

/-- OR (R134). -/
def execOr (rd rs rt : Reg) (s : State) : Host.Outcome State Fault Refusal :=
  .next (s.aluWrite rd (aluOr (s.x rs) (s.x rt)))

/-- XOR (R135). -/
def execXor (rd rs rt : Reg) (s : State) : Host.Outcome State Fault Refusal :=
  .next (s.aluWrite rd (aluXor (s.x rs) (s.x rt)))

/-- SLL (R136). -/
def execSll (rd rs rt : Reg) (s : State) : Host.Outcome State Fault Refusal :=
  .next (s.aluWrite rd (aluSll (s.x rs) (s.x rt)))

/-- SRL (R137). -/
def execSrl (rd rs rt : Reg) (s : State) : Host.Outcome State Fault Refusal :=
  .next (s.aluWrite rd (aluSrl (s.x rs) (s.x rt)))

end Sys2Proof.Machine
end

