-- ==== Sys2Proof/Machine/ControlTransfer.lean ====
section
/-! DEFINITION. Control transfer and the unassigned opcodes (44_control_transfer R170 to R173). -/

namespace Sys2Proof.Machine

/-- BZ (R170): tests all 16 bits of the register, not the Z flag. -/
def execBz (ra : Reg) (imm8 : BitVec 8) (s : State) : Host.Outcome State Fault Refusal :=
  if s.x ra = 0 then .next (s.setX Config.pcIdx (branchTarget s imm8)) else .next s

/-- JR (R171): absolute; the low byte is ignored. -/
def execJr (ra : Reg) (_ignored : BitVec 8) (s : State) : Host.Outcome State Fault Refusal :=
  .next (s.setX Config.pcIdx (s.x ra))

/-- HALT (R172): no fault report (60_exceptions R243). -/
def execHalt (_ignored : BitVec 12) (s : State) : Host.Outcome State Fault Refusal :=
  .next { s with mode := .halted }

/-- The unassigned opcode 0xE raises DecodeFault (R173, 60_exceptions R222). -/
def execUnassignedE (ignored : BitVec 12) (s : State) : Host.Outcome State Fault Refusal :=
  .next (s.raise (.decode s.fetchedFrom (encode (.unassignedE ignored))))

/-- The unassigned opcode 0xF raises DecodeFault (R173, 60_exceptions R222). -/
def execUnassignedF (ignored : BitVec 12) (s : State) : Host.Outcome State Fault Refusal :=
  .next (s.raise (.decode s.fetchedFrom (encode (.unassignedF ignored))))

end Sys2Proof.Machine
end

