-- ==== Sys2Proof/Machine/LoadStore.lean ====
section
/-! DEFINITION. Load and store (43_load_store R160 to R162). An effective address above 4094 raises BoundsFault before
any write; the report carries the instruction's address, its word and the effective address (60_exceptions R224). -/

namespace Sys2Proof.Machine

/-- LW (R161): no flag is written, also with slot 13 as the destination (10_state R32). -/
def execLw (rd rs : Reg) (imm8 : BitVec 8) (s : State) : Host.Outcome State Fault Refusal :=
  match s.mem.readWord (effectiveAddress s rs imm8) with
  | some v => .next (s.setX rd v)
  | none => .next (s.raise (.boundsData s.fetchedFrom (encode (.lw rd rs imm8)) (effectiveAddress s rs imm8)))

/-- SW (R162): neither byte is written when the address is out of range. -/
def execSw (ra rs : Reg) (imm8 : BitVec 8) (s : State) : Host.Outcome State Fault Refusal :=
  match s.mem.writeWord (effectiveAddress s rs imm8) (s.x ra) with
  | some m => .next { s with mem := m }
  | none => .next (s.raise (.boundsData s.fetchedFrom (encode (.sw ra rs imm8)) (effectiveAddress s rs imm8)))

end Sys2Proof.Machine
end

