-- ==== Sys2Proof/Machine/Dispatch.lean ====
section
/-! DEFINITION. The dispatch table of the execution unit (40_step_cycle R116): one meaning per constructor. It is run with
the program counter already advanced (00_scope R10). -/

namespace Sys2Proof.Machine

def exec (i : Instr) (s : State) : Host.Outcome State Fault Refusal :=
  match i with
  | .add rd rs rt => Sys2Proof.Machine.execAdd rd rs rt s
  | .sub rd rs rt => Sys2Proof.Machine.execSub rd rs rt s
  | .and rd rs rt => Sys2Proof.Machine.execAnd rd rs rt s
  | .or rd rs rt => Sys2Proof.Machine.execOr rd rs rt s
  | .xor rd rs rt => Sys2Proof.Machine.execXor rd rs rt s
  | .sll rd rs rt => Sys2Proof.Machine.execSll rd rs rt s
  | .srl rd rs rt => Sys2Proof.Machine.execSrl rd rs rt s
  | .addi rd imm8 => Sys2Proof.Machine.execAddi rd imm8 s
  | .subi rd imm8 => Sys2Proof.Machine.execSubi rd imm8 s
  | .lw rd rs imm8 => Sys2Proof.Machine.execLw rd rs imm8 s
  | .sw ra rs imm8 => Sys2Proof.Machine.execSw ra rs imm8 s
  | .bz ra imm8 => Sys2Proof.Machine.execBz ra imm8 s
  | .jr ra ignored => Sys2Proof.Machine.execJr ra ignored s
  | .halt ignored => Sys2Proof.Machine.execHalt ignored s
  | .unassignedE ignored => Sys2Proof.Machine.execUnassignedE ignored s
  | .unassignedF ignored => Sys2Proof.Machine.execUnassignedF ignored s

end Sys2Proof.Machine
end

