-- ==== Sys2Proof/Machine/Control.lean ====
section
/-! DEFINITION. The step procedure of the execution unit (40_step_cycle R110), the host's control commands and the grant of
one request by the arbiter (45_control R190 to R205). -/

namespace Sys2Proof.Machine

/-- The outcome with its next state passed on. -/
def onNext (o : Host.Outcome State Fault Refusal) (f : State → State) : Host.Outcome State Fault Refusal :=
  match o with
  | .next t => .next (f t)
  | .fault r => .fault r
  | .refused r => .refused r

/-- `Step()` (40_step_cycle R110): fetch check, fetch, advance, decode, execute, hand the snapshot over. A fetch with the
program counter above 4094 raises BoundsFault with the program counter unchanged (R112). -/
def engineStep (s : State) : Host.Outcome State Fault Refusal :=
  match s.mem.readWord s.pc with
  | none => .next (s.raise (.boundsFetch s.pc)).handOver
  | some w => onNext (exec (decodeWord w) s.advance) State.handOver

/-- A tick: one step if Running, else nothing at all (45_control R191, R204). -/
def grantTick (s : State) : Host.Outcome State Fault Refusal :=
  if s.mode = .running then engineStep s else .next s

/-- `start_run()` (45_control R195). -/
def grantStartRun (s : State) : State :=
  match s.mode with
  | .paused => { s with mode := .running }.answerWith .done
  | .running => s.answerWith .done
  | .halted => s.answerWith .runRejected

/-- `pause()` (45_control R196). -/
def grantPause (s : State) : State :=
  match s.mode with
  | .running => { s with mode := .paused }.answerWith .done
  | .paused => s.answerWith .done
  | .halted => s.answerWith .done

/-- `step_once()`: one step in Paused or Running, rejected in Halted (45_control R197, R198). -/
def grantStepOnce (s : State) : Host.Outcome State Fault Refusal :=
  if s.mode = .halted then .next (s.answerWith .stepRejected)
  else onNext (engineStep s) (fun t => t.answerWith .done)

/-- `reset()`: the whole engine state back to the creation state, in every mode; the report is cleared; the requests still
to be granted and the snapshot already handed over are not engine state (45_control R199, 60_exceptions R229). -/
def grantReset (s : State) : State :=
  { State.reset with broadcast := s.broadcast, schedule := s.schedule }.answerWith .done

/-- `load_program(bytes, base)`: rejected whole when it would pass the end of memory; else the bytes, slot 15 and the mode
are written, the report is cleared and nothing else changes (45_control R200 to R202, 60_exceptions R229). -/
def grantLoad (bytes : List Byte) (base : Word) (s : State) : State :=
  if base.toNat + bytes.length ≤ Config.cap then
    ({ s with mem := s.mem.storeBytes base.toNat bytes, mode := .paused, report := none }.setX Config.pcIdx base).answerWith
      .done
  else s.answerWith .loadRejected

/-- `get_snapshot()` (45_control R205). -/
def grantSnapshot (s : State) : State := s.answerWith (.snapshot s.snapshot)

/-- One grant of the arbiter, whole (45_control R190, R193). -/
def grant (r : Request) (s : State) : Host.Outcome State Fault Refusal :=
  match r with
  | .tick => grantTick s
  | .startRun => .next (grantStartRun s)
  | .pause => .next (grantPause s)
  | .stepOnce => grantStepOnce s
  | .reset => .next (grantReset s)
  | .loadProgram bytes base => .next (grantLoad bytes base s)
  | .getSnapshot => .next (grantSnapshot s)

/-- The request granted next: the head of the schedule, or the clock driver's next tick when nothing else is to be granted
("ticks keep coming", 70_reset R261, 45_control R191; log entry 2). -/
def State.nextRequest (s : State) : Request := s.schedule.headD .tick

/-- The state in which the next request is granted: the request is off the schedule. -/
def State.afterPop (s : State) : State := { s with schedule := s.schedule.tail }

/-- A request that arrives while others wait may be granted before or after any of them (45_control R192): `k` is its place
in the order of the grants. -/
def State.issue (s : State) (r : Request) (k : Nat) : State :=
  { s with schedule := s.schedule.insertIdx (min k s.schedule.length) r }

/-- Where a word can be placed for the next fetch: at the program counter, or at 0 when no word fits there. -/
def State.placeAt (s : State) : Word := if s.pc.toNat ≤ Config.cap - 2 then s.pc else 0

/-- The word `w` in memory where the next fetch reads, the engine running and a tick granted next: what `load_program`,
`start_run` and a tick do together (70_reset R254; log entry 3). -/
def State.placeWord (s : State) (w : Word) : State :=
  { s with
    mem := s.mem.storeBytes s.placeAt.toNat [highByte w, lowByte w]
    mode := .running
    schedule := .tick :: s.schedule }.setX Config.pcIdx s.placeAt

end Sys2Proof.Machine
end

