-- ==== Sys2Proof/Machine/Step.lean ====
section
/-! DEFINITION. One step of the model: the arbiter's next grant (20_memory R66, 45_control R190). A grant of a tick while
Running, or of `step_once` while not Halted, is one `Step()` of the execution unit. -/

namespace Sys2Proof.Machine

/-- The next grant, whole. -/
def step (s : State) : Host.Outcome State Fault Refusal := grant s.nextRequest s.afterPop

/-- The state with the table row's word placed where the very next step fetches and runs it (log entry 3). -/
def State.withFetchWord (s : State) (nbits w : Nat) : State := s.placeWord (tableWord nbits w)

end Sys2Proof.Machine
end

