-- ==== Sys2Proof/Machine/Assembler.lean ====
section
/-! DEFINITION. The spec's names and assembler forms (10_state R22, 30_encoding R100 to R102), which the spec calls notation and
no part of the hardware (decision D5): the slot names, the operand checks, the pseudo-instructions, the program format. No
step of the machine uses them. -/

namespace Sys2Proof.Machine

/-- The names of the slots, in order (10_state R22); FL, SP and PC are other names of r13, r14 and r15. -/
def slotNames : List String :=
  ["r0", "r1", "r2", "r3", "r4", "r5", "r6", "r7", "r8", "r9", "r10", "r11", "r12", "r13", "r14", "r15"]

/-- The snapshot's register map, from names to values (45_control R205). -/
def Snapshot.registerMap (sn : Snapshot) : List (String × Word) := slotNames.zip sn.registers.toList

/-- A signed immediate or offset as its byte, in [-128, 127] (30_encoding R100). -/
def signedByte (v : Int) : Option (BitVec 8) := if -128 ≤ v ∧ v ≤ 127 then some (BitVec.ofInt 8 v) else none

/-- The offset byte of a displacement from base `rb`: legal only when its high nibble is the base's index (30_encoding R92,
R100). -/
def displacementByte (rb : Reg) (disp : Int) : Option (BitVec 8) :=
  (signedByte disp).filter (fun b => b.extractLsb' 4 4 == rb)

/-- `ADDI rd, imm` (30_encoding R100). -/
def asmAddi (rd : Reg) (imm : Int) : Option Instr := (signedByte imm).map (.addi rd)

/-- `SUBI rd, imm` (30_encoding R100). -/
def asmSubi (rd : Reg) (imm : Int) : Option Instr := (signedByte imm).map (.subi rd)

/-- `LW rd, disp(rb)` (30_encoding R100). -/
def asmLw (rd rb : Reg) (disp : Int) : Option Instr := (displacementByte rb disp).map (.lw rd rb)

/-- `SW ra, disp(rb)` (30_encoding R100). -/
def asmSw (ra rb : Reg) (disp : Int) : Option Instr := (displacementByte rb disp).map (.sw ra rb)

/-- `BZ ra, off` (30_encoding R100). -/
def asmBz (ra : Reg) (off : Int) : Option Instr := (signedByte off).map (.bz ra)

/-- `BZ ra, label`, standing at address `here` (30_encoding R100). -/
def asmBzTo (ra : Reg) (label here : Int) : Option Instr := asmBz ra (label - (here + 2))

/-- `JR ra`: the ignored byte is written as zero (30_encoding R97, R100). -/
def asmJr (ra : Reg) : Instr := .jr ra 0

/-- `HALT`: the ignored bits are written as zero (30_encoding R97, R100). -/
def asmHalt : Instr := .halt 0

/-- The pseudo-instructions (30_encoding R101). -/
inductive Pseudo where
  | nop
  | mov (rd rs : Reg)
  | clr (rd : Reg)
  | li (rd : Reg) (imm : Int)
  | jmp (off : Int)
deriving DecidableEq, Repr

/-- The expansion of a pseudo-instruction; `LI` is not for r13 or r15 (30_encoding R101). -/
def expandPseudo : Pseudo → Option (List Instr)
  | .nop => some [asmJr Config.pcIdx]
  | .mov rd rs => some [.or rd rs rs]
  | .clr rd => some [.xor rd rd rd]
  | .li rd imm =>
    if rd = Config.pcIdx ∨ rd = Config.flIdx then none else (asmAddi rd imm).map (fun i => [.xor rd rd rd, i])
  | .jmp off => (asmAddi Config.pcIdx off).map (fun i => [i])

/-- A program's bytes: the words in order, big-endian, no header (30_encoding R102). -/
def programBytes (is : List Instr) : List Byte := is.flatMap encodeBytes

end Sys2Proof.Machine
end

