-- ==== Sys2Proof/Safety.lean ====
section
/-! DEFINITION. The terms claims are stated in: the flags by name, what an instruction leaves unchanged, the effect of an
ALU-class operation and of a fault, which slots an instruction writes, and the invariant of the engine. -/

namespace Sys2Proof.Instr

/-- The slots an instruction may write while it executes (10_state R24). -/
def slotsWritten : Instr → List Reg
  | .add rd _ _ | .sub rd _ _ | .and rd _ _ | .or rd _ _ | .xor rd _ _ | .sll rd _ _ | .srl rd _ _ => [rd, Config.flIdx]
  | .addi rd _ | .subi rd _ => [rd, Config.flIdx]
  | .lw rd _ _ => [rd]
  | .bz _ _ | .jr _ _ => [Config.pcIdx]
  | .sw _ _ _ | .halt _ | .unassignedE _ | .unassignedF _ => []

/-- The instruction stores to memory: SW alone (20_memory R61, 43_load_store R163). -/
def stores : Instr → Bool
  | .sw _ _ _ => true
  | .add _ _ _ | .sub _ _ _ | .and _ _ _ | .or _ _ _ | .xor _ _ _ | .sll _ _ _ | .srl _ _ _ => false
  | .addi _ _ | .subi _ _ | .lw _ _ _ | .bz _ _ | .jr _ _ => false
  | .halt _ | .unassignedE _ | .unassignedF _ => false

/-- The instruction is one of the nine ALU-class operations (00_scope R12, 10_state R31). -/
def aluClass : Instr → Bool
  | .add _ _ _ | .sub _ _ _ | .and _ _ _ | .or _ _ _ | .xor _ _ _ | .sll _ _ _ | .srl _ _ _ => true
  | .addi _ _ | .subi _ _ => true
  | .lw _ _ _ | .sw _ _ _ | .bz _ _ | .jr _ _ | .halt _ | .unassignedE _ | .unassignedF _ => false

/-- The instruction is HALT. -/
def isHalt : Instr → Bool
  | .halt _ => true
  | .add _ _ _ | .sub _ _ _ | .and _ _ _ | .or _ _ _ | .xor _ _ _ | .sll _ _ _ | .srl _ _ _ => false
  | .addi _ _ | .subi _ _ | .lw _ _ _ | .sw _ _ _ | .bz _ _ | .jr _ _ => false
  | .unassignedE _ | .unassignedF _ => false

end Sys2Proof.Instr

namespace Sys2Proof.Machine

/-- Z: bit 0 of slot 13 (10_state R30). -/
def State.zFlag (s : State) : Bool := s.fl.getLsbD 0

/-- N: bit 1 of slot 13 (10_state R30). -/
def State.nFlag (s : State) : Bool := s.fl.getLsbD 1

/-- Every byte of memory reads as before. -/
def SameMemory (s t : State) : Prop := ∀ a : Word, t.mem.readByte a = s.mem.readByte a

/-- Every register slot reads as before. -/
def SameRegisters (s t : State) : Prop := ∀ i : Reg, t.x i = s.x i

/-- The host's side of the state is as before: the answers, the snapshot handed over, the requests still to be granted. -/
def SameHostSide (s t : State) : Prop :=
  t.answer = s.answer ∧ t.broadcast = s.broadcast ∧ t.schedule = s.schedule

/-- Everything but registers and memory is as before: the mode, the fault report and the host's side. -/
def SameControl (s t : State) : Prop := t.mode = s.mode ∧ t.report = s.report ∧ SameHostSide s t

/-- `t` is `s` after an ALU-class operation with destination `rd` and result `r`: the destination holds `r`, Z and N are
those of `r`, bits 15:2 of slot 13 are touched only where slot 13 is the destination, and nothing else has changed
(41_alu_register R130, 40_step_cycle R118, R119). -/
def AluEffect (rd : Reg) (r : Word) (s t : State) : Prop :=
  (∀ i : Reg, i ≠ Config.flIdx → t.x i = if i = rd then r else s.x i) ∧
  t.zFlag = decide (r.toNat = 0) ∧ t.nFlag = r.getLsbD 15 ∧
  (∀ k, 2 ≤ k → k < 16 → t.fl.getLsbD k = (if rd = Config.flIdx then r else s.fl).getLsbD k) ∧
  SameMemory s t ∧ SameControl s t

/-- `t` is `s` after raising fault `f`: halted, reported, and nothing else has changed (60_exceptions R221, R232). -/
def FaultEffect (f : Fault) (s t : State) : Prop :=
  t.mode = .halted ∧ t.report = some f ∧ SameRegisters s t ∧ SameMemory s t ∧ SameHostSide s t

/-- The next grant performs a `Step()`: a tick while Running, or `step_once` while not Halted (40_step_cycle R111). -/
def State.Steps (s : State) : Prop :=
  (s.nextRequest = .tick ∧ s.mode = .running) ∨ (s.nextRequest = .stepOnce ∧ s.mode ≠ .halted)

/-- The host's answer that a `Step()` leaves behind: `step_once` is answered, a tick answers nobody (45_control R197). -/
def State.answerAfterStep (s : State) : Option Answer :=
  if s.nextRequest = .stepOnce then some .done else s.answer

/-- A fault report that a step can have sent, with the program counter it leaves (60_exceptions R222 to R224, R232): a fetch
fault's address is out of range and is the program counter; the other two leave the program counter 2 past the
instruction, and carry a word of an unassigned opcode, or of LW or SW with an address out of range. -/
def Fault.LegalAt (pc : Word) : Fault → Prop
  | .boundsFetch pc0 => pc0 = pc ∧ Config.cap - 2 < pc0.toNat
  | .decode pc0 w => pc0 + 2 = pc ∧ 0xE000 ≤ w.toNat
  | .boundsData pc0 w ea => pc0 + 2 = pc ∧ 0x9000 ≤ w.toNat ∧ w.toNat < 0xB000 ∧ Config.cap - 2 < ea.toNat
  | .index _ => False

/-- A snapshot's parts agree with each other: the derived entries are copies of its registers and its mode, and its window
has the size of the parameter (45_control R205). -/
def Snapshot.Consistent (sn : Snapshot) : Prop :=
  sn.running = (sn.mode == .running) ∧ sn.pc = sn.registers[15] ∧ sn.flags = sn.registers[13] ∧
  sn.memoryWindow.length = Config.snapWindow.val

/-- The invariant of the engine: memory in its canonical form; a fault report only while Halted and only one a step can
have sent, naming the instruction the program counter stands at; every snapshot given out consistent. -/
def EngineInv (s : State) : Prop :=
  s.mem.wf ∧
  (∀ f, s.report = some f → s.mode = .halted ∧ f.LegalAt s.pc) ∧
  (∀ sn, s.broadcast = some sn → sn.Consistent) ∧
  (∀ sn, s.answer = some (.snapshot sn) → sn.Consistent)

/-- The request leaves a Halted engine Halted: it is neither `reset` nor a load that is accepted (45_control R194). -/
def Request.KeepsHalted : Request → Prop
  | .reset => False
  | .loadProgram bytes base => Config.cap < base.toNat + bytes.length
  | .tick | .startRun | .pause | .stepOnce | .getSnapshot => True

/-- The instruction writes slot 15 while it executes in `s`: slot 15 is among the slots it writes, and it is no BZ that is
not taken (44_control_transfer R175). -/
def JumpsIn (i : Instr) (s : State) : Prop :=
  Config.pcIdx ∈ i.slotsWritten ∧ ∀ ra imm8, i = .bz ra imm8 → s.x ra = 0

/-- The next `Step()` runs on to the next sequential instruction: the fetch is in range, and the instruction fetched neither
writes slot 15, nor halts, nor faults (45_control R207). -/
def State.StepsSequentially (s : State) : Prop :=
  ∃ w, s.mem.readWord s.pc = some w ∧ ¬ JumpsIn (decodeWord w) s.advance ∧
    ∀ t, exec (decodeWord w) s.advance = .next t → t.mode ≠ .halted

end Sys2Proof.Machine
end

