-- ==== Sys2Proof/Certificates/Slice0/Obligations.lean ====
section
/-! DEFINITION. The statements for the provers. Each docstring names the rule of spec/ it formalises; where the spec marks a
rule as its own decision (D<n>) or as derived, the docstring says so. -/

open Sys2Proof Sys2Proof.Machine

/-! ### Encoding -/

/-- 30_encoding R82 to R86: the five fields are the word's bits 15:12, 11:8, 7:4, 3:0 and 7:0, and the immediate's signed
reading is in [-128, 127]. -/
def Obligations.FieldsAreTheBitsOfTheWord : Prop :=
  ∀ w : Word,
    (cutFields w).opcode.toNat = w.toNat / 4096 ∧
    (cutFields w).first.toNat = w.toNat / 256 % 16 ∧
    (cutFields w).rs.toNat = w.toNat / 16 % 16 ∧
    (cutFields w).rt.toNat = w.toNat % 16 ∧
    (cutFields w).imm8.toNat = w.toNat % 256 ∧
    -128 ≤ (cutFields w).imm8.toInt ∧ (cutFields w).imm8.toInt ≤ 127

/-- 30_encoding R87 (which the spec marks derived): the immediate is `rs * 16 + rt` for every word; so for every word that
decodes to LW or SW the base index is the high nibble of the offset byte (R92, the spec's decision D7). -/
def Obligations.ImmediateOverlapsRegisterFields : Prop :=
  ∀ w : Word,
    (cutFields w).imm8.toNat = (cutFields w).rs.toNat * 16 + (cutFields w).rt.toNat ∧
    ∀ (r rs : Reg) (imm8 : BitVec 8), decodeWord w = .lw r rs imm8 ∨ decodeWord w = .sw r rs imm8 →
      rs.toNat = imm8.toNat / 16

/-- 30_encoding section 2: `sext_16` gives the byte itself below 128 and the byte plus 0xFF00 from 128 on. Read as a signed
number it has the immediate's signed reading (00_scope R8, which the spec marks derived). -/
def Obligations.SignExtensionKeepsSignedValue : Prop :=
  ∀ v : BitVec 8,
    (sext16 v).toNat = (if v.toNat < 128 then v.toNat else v.toNat + 0xFF00) ∧ (sext16 v).toInt = v.toInt

/-- Every well-formed instruction, encoded and laid out in memory order before any other bytes, decodes to itself and leaves
those bytes (30_encoding, layout and opcode map; R102's byte order). -/
def Obligations.DecodeOfEncodeIsIdentity : Prop :=
  ∀ (i : Instr) (rest : List Byte), i.WellFormed → decode (encodeBytes i ++ rest) = .ok (i, rest)

/-- 30_encoding R81, "Decoding never fails", and section 1's wire contract: every one of the 65536 words decodes to a
well-formed instruction, whose encoding is that word again, so that no two words decode alike. -/
def Obligations.EveryWordDecodesAndEncodesBack : Prop :=
  ∀ w : Word, (decodeWord w).WellFormed ∧ encode (decodeWord w) = w

/-- 30_encoding section 1: an instruction is read off two bytes, the first the high one; fewer bytes are refused by name. -/
def Obligations.DecodeReadsTwoBytesBigEndian : Prop :=
  (∀ (hi lo : Byte) (rest : List Byte), ∃ w : Word, w.toNat = hi.toNat * 256 + lo.toNat ∧
    decode (hi :: lo :: rest) = .ok (decodeWord w, rest)) ∧
  (∀ b : Byte, decode [b] = .error .truncated) ∧ decode [] = .error .truncated

/-- Words written out from 95_test_vectors section 2 decode to the instructions they stand for. -/
def Obligations.WrittenOutWordsDecode : Prop :=
  decodeWord 0x0123 = .add 1 2 3 ∧ decodeWord 0x5A5A = .sll 10 5 10 ∧ decodeWord 0x71FF = .addi 1 0xFF ∧
  decodeWord 0x8080 = .subi 0 0x80 ∧ decodeWord 0x9210 = .lw 2 1 0x10 ∧ decodeWord 0xA10E = .sw 1 0 0x0E ∧
  decodeWord 0xB1FE = .bz 1 0xFE ∧ decodeWord 0xC5AB = .jr 5 0xAB ∧ decodeWord 0xDFFF = .halt 0xFFF ∧
  decodeWord 0xE000 = .unassignedE 0 ∧ decodeWord 0xFFFF = .unassignedF 0xFFF

/-- 30_encoding section 4 (numbers: the spec's decision D4) and 40_step_cycle R116: the row is selected by the opcode nibble
alone, and the words of the unassigned rows are exactly 0xE000 to 0xFFFF. -/
def Obligations.OpcodeNibbleSelectsTheRow : Prop :=
  ∀ w : Word, (decodeWord w).opcode.toNat = w.toNat / 4096 ∧
    ((∃ ig, decodeWord w = .unassignedE ig ∨ decodeWord w = .unassignedF ig) ↔ 0xE000 ≤ w.toNat)

/-! ### The register file -/

/-- 10_state R21: both operations of the register file succeed on every index in [0,16), a read gives the value last written,
and a write changes no other slot and nothing else. -/
def Obligations.RegisterRoundTrip : Prop :=
  ∀ (s : State) (r : Nat) (v : Word), r < 16 →
    ∃ t, s.setRegister r v = .ok t ∧ t.getRegister r = .ok v ∧
      (∀ q, q ≠ r → t.getRegister q = s.getRegister q) ∧ SameMemory s t ∧ SameControl s t

/-- 10_state R25 and 60_exceptions R225 (the spec's decision D18): an index of 16 or more fails with IndexFault, and an engine
handed it halts and reports, with no slot touched; an index below 16 never does so. -/
def Obligations.RegisterPortRejectsIndexOutOfRange : Prop :=
  ∀ (s : State) (idx : Nat) (v : Word),
    (16 ≤ idx → s.getRegister idx = .error (.index idx) ∧ s.setRegister idx v = .error (.index idx) ∧
      FaultEffect (.index idx) s (s.orRaise (s.setRegister idx v))) ∧
    (idx < 16 → (s.orRaise (s.setRegister idx v)).mode = s.mode ∧ (s.orRaise (s.setRegister idx v)).report = s.report)

/-- 10_state R25 (derived there): no instruction can raise IndexFault: no step sends its report. -/
def Obligations.NoStepReportsIndexFault : Prop :=
  ∀ (s t : State) (idx : Nat), step s = .next t → t.report = some (.index idx) → s.report = some (.index idx)

/-! ### Memory -/

/-- 20_memory R55, R56: a byte access at an address above 4095 fails; at any other address a read answers and a write stores
the byte there and changes no other byte. -/
def Obligations.ByteAccessReadsAndWrites : Prop :=
  ∀ (m : Memory) (a : Word) (v : Byte),
    (4095 < a.toNat → m.readByte a = none ∧ m.writeByte a v = none) ∧
    (a.toNat ≤ 4095 → m.readByte a = some (m.get a.toNat) ∧ ∃ m', m.writeByte a v = some m' ∧ m'.readByte a = some v ∧
      ∀ b : Word, b ≠ a → m'.readByte b = m.readByte b)

/-- 20_memory R53, R57: a word read is the two bytes at `a` and `a + 1`, the first the high one, and fails above 4094. -/
def Obligations.WordReadIsTwoBytesBigEndian : Prop :=
  ∀ (m : Memory) (a : Word),
    (4094 < a.toNat → m.readWord a = none) ∧
    (a.toNat ≤ 4094 → ∃ b0 b1 v, m.readByte a = some b0 ∧ m.readByte (a + 1) = some b1 ∧ m.readWord a = some v ∧
      v.toNat = b0.toNat * 256 + b1.toNat)

/-- 20_memory R58: a word store writes bits 15:8 at `a` and bits 7:0 at `a + 1` and no other byte, and above 4094 it fails with
neither byte written. -/
def Obligations.WordStoreWritesBothBytesOrNone : Prop :=
  ∀ (m : Memory) (a v : Word),
    (4094 < a.toNat → m.writeWord a v = none) ∧
    (a.toNat ≤ 4094 → ∃ m' hi lo, m.writeWord a v = some m' ∧ m'.readByte a = some hi ∧ m'.readByte (a + 1) = some lo ∧
      hi.toNat = v.toNat / 256 ∧ lo.toNat = v.toNat % 256 ∧
      ∀ b : Word, b ≠ a → b ≠ a + 1 → m'.readByte b = m.readByte b)

/-- The canonical form of the model's memory is one: two memories in it that read alike at every address are equal (the
model's choice of representation, log entry 12; 20_memory R50 gives the address space). -/
def Obligations.CanonicalMemoriesReadingAlikeAreEqual : Prop :=
  ∀ m m' : Memory, m.wf → m'.wf → (∀ a : Word, m.readByte a = m'.readByte a) → m = m'

/-- 20_memory R70 and section 2 (derived there): the word an SW has stored is the word a fetch at that address reads, whatever
stood there before. -/
def Obligations.StoredWordIsTheNextOneFetched : Prop :=
  ∀ (ra rs : Reg) (imm8 : BitVec 8) (s t : State), exec (.sw ra rs imm8) s = .next t → t.report = none →
    (effectiveAddress s rs imm8).toNat ≤ 4094 ∧
    t.mem.readWord (effectiveAddress s rs imm8) = some (s.x ra) ∧
    ∀ u : State, u.mem = t.mem → u.pc = effectiveAddress s rs imm8 →
      ∀ v, exec (decodeWord (s.x ra)) u.advance = .next v → engineStep u = .next v.handOver

/-! ### Register-register ALU instructions -/

/-- 41_alu_register R131: ADD's word; its sum modulo 65536; its flags; it never faults and changes nothing else (the positions
of Z and N are the spec's decision D3, the opcode number D4). -/
def Obligations.AddWritesSumAndFlags : Prop :=
  ∀ (rd rs rt : Reg) (s : State), decodeWord (0x0#4 ++ rd ++ rs ++ rt) = .add rd rs rt ∧
    ∃ r t, exec (.add rd rs rt) s = .next t ∧ AluEffect rd r s t ∧
      r.toNat = ((s.x rs).toNat + (s.x rt).toNat) % 65536

/-- 41_alu_register R132: SUB's word; the first source is the minuend and the difference is modulo 65536; its flags. -/
def Obligations.SubWritesDifferenceAndFlags : Prop :=
  ∀ (rd rs rt : Reg) (s : State), decodeWord (0x1#4 ++ rd ++ rs ++ rt) = .sub rd rs rt ∧
    ∃ r t, exec (.sub rd rs rt) s = .next t ∧ AluEffect rd r s t ∧
      r.toNat = if (s.x rt).toNat ≤ (s.x rs).toNat then (s.x rs).toNat - (s.x rt).toNat
        else (s.x rs).toNat + 65536 - (s.x rt).toNat

/-- 41_alu_register R133: AND's word; bitwise on all 16 bits; its flags. -/
def Obligations.AndWritesConjunctionAndFlags : Prop :=
  ∀ (rd rs rt : Reg) (s : State), decodeWord (0x2#4 ++ rd ++ rs ++ rt) = .and rd rs rt ∧
    ∃ r t, exec (.and rd rs rt) s = .next t ∧ AluEffect rd r s t ∧
      ∀ k, k < 16 → r.getLsbD k = ((s.x rs).getLsbD k && (s.x rt).getLsbD k)

/-- 41_alu_register R134: OR's word; bitwise on all 16 bits; its flags. -/
def Obligations.OrWritesDisjunctionAndFlags : Prop :=
  ∀ (rd rs rt : Reg) (s : State), decodeWord (0x3#4 ++ rd ++ rs ++ rt) = .or rd rs rt ∧
    ∃ r t, exec (.or rd rs rt) s = .next t ∧ AluEffect rd r s t ∧
      ∀ k, k < 16 → r.getLsbD k = ((s.x rs).getLsbD k || (s.x rt).getLsbD k)

/-- 41_alu_register R135: XOR's word; bitwise exclusive or on all 16 bits; its flags. -/
def Obligations.XorWritesExclusiveOrAndFlags : Prop :=
  ∀ (rd rs rt : Reg) (s : State), decodeWord (0x4#4 ++ rd ++ rs ++ rt) = .xor rd rs rt ∧
    ∃ r t, exec (.xor rd rs rt) s = .next t ∧ AluEffect rd r s t ∧
      ∀ k, k < 16 → r.getLsbD k = ((s.x rs).getLsbD k ^^ (s.x rt).getLsbD k)

/-- 41_alu_register, SLL (the spec's decision D10): the amount is the whole unsigned second source; up to 15 it multiplies by a
power of two modulo 65536, from 16 on the result is 0; its flags. -/
def Obligations.SllShiftsByTheWholeAmount : Prop :=
  ∀ (rd rs rt : Reg) (s : State), decodeWord (0x5#4 ++ rd ++ rs ++ rt) = .sll rd rs rt ∧
    ∃ r t, exec (.sll rd rs rt) s = .next t ∧ AluEffect rd r s t ∧
      r.toNat = if (s.x rt).toNat ≤ 15 then (s.x rs).toNat * 2 ^ (s.x rt).toNat % 65536 else 0

/-- 41_alu_register, SRL (the spec's decision D10): the amount is the whole unsigned second source; up to 15 it divides by a
power of two, zeros entering at bit 15, from 16 on the result is 0; its flags. -/
def Obligations.SrlShiftsByTheWholeAmount : Prop :=
  ∀ (rd rs rt : Reg) (s : State), decodeWord (0x6#4 ++ rd ++ rs ++ rt) = .srl rd rs rt ∧
    ∃ r t, exec (.srl rd rs rt) s = .next t ∧ AluEffect rd r s t ∧
      r.toNat = if (s.x rt).toNat ≤ 15 then (s.x rs).toNat / 2 ^ (s.x rt).toNat else 0

/-- 10_state section 5, last sentence of R31 (derived there): after any ALU-class operation Z and N are not both 1. -/
def Obligations.ZeroAndNegativeAreNeverBothSet : Prop :=
  ∀ (i : Instr) (s t : State), i.aluClass = true → exec i s = .next t → ¬ (t.zFlag = true ∧ t.nFlag = true)

/-! ### Register-immediate ALU instructions -/

/-- 42_alu_immediate R151: ADDI's word; the register plus the sign-extended immediate, modulo 65536, back into the register; its
flags (one register field for source and destination: the spec's decision D6). -/
def Obligations.AddiAddsSignedImmediate : Prop :=
  ∀ (rd : Reg) (imm8 : BitVec 8) (s : State), decodeWord (0x7#4 ++ rd ++ imm8) = .addi rd imm8 ∧
    ∃ r t, exec (.addi rd imm8) s = .next t ∧ AluEffect rd r s t ∧
      (r.toNat : Int) = ((s.x rd).toNat + imm8.toInt) % 65536

/-- 42_alu_immediate R152: SUBI's word; the register minus the sign-extended immediate, modulo 65536, back into the register;
its flags (one register field for source and destination: the spec's decision D6). -/
def Obligations.SubiSubtractsSignedImmediate : Prop :=
  ∀ (rd : Reg) (imm8 : BitVec 8) (s : State), decodeWord (0x8#4 ++ rd ++ imm8) = .subi rd imm8 ∧
    ∃ r t, exec (.subi rd imm8) s = .next t ∧ AluEffect rd r s t ∧
      (r.toNat : Int) = ((s.x rd).toNat - imm8.toInt) % 65536

/-! ### Load and store -/

/-- 43_load_store, effective address (R160, the spec's decisions D7 and D11): base register plus signed offset, modulo
65536. -/
def Obligations.EffectiveAddressIsModularSum : Prop :=
  ∀ (s : State) (rs : Reg) (imm8 : BitVec 8),
    ((effectiveAddress s rs imm8).toNat : Int) = ((s.x rs).toNat + imm8.toInt) % 65536

/-- 30_encoding section 3's table and section 6 (the spec's decisions D7, D5): from base `rb` the assembler takes exactly the sixteen
displacements `signed8(16 * rb + n)`, `n` from 0 to 15, and the instruction it gives addresses base plus displacement. -/
def Obligations.ReachableDisplacementsPerBase : Prop :=
  ∀ (rd rb : Reg) (disp : Int),
    ((∃ i, asmLw rd rb disp = some i) ↔ ∃ n : BitVec 4, (rb ++ n : BitVec 8).toInt = disp) ∧
    ∀ i, asmLw rd rb disp = some i → i.WellFormed ∧ decodeWord (encode i) = i ∧
      ∃ imm8, i = .lw rd rb imm8 ∧ ∀ s : State,
        ((effectiveAddress s rb imm8).toNat : Int) = ((s.x rb).toNat + disp) % 65536

/-- 43_load_store R161: LW's word, whose offset byte is `16 * rs + rt`; in range it loads the big-endian word at the effective
address into all 16 bits of `rd` and changes nothing else, flags included; above 4094 it raises BoundsFault and writes nothing.
The report in the fault clause (the address 2 before slot 15 and the encoding of the term, in every state and for a term whose `rs` is
not the high nibble of `imm8` too) is the model's: log entries 9 (DEDUCED) and 11 (DESIGN CHOICE); 60_exceptions section 1 gives the
report of a fetched instruction. -/
def Obligations.LoadWordLoadsOrFaults : Prop :=
  (∀ (rd rs rt : Reg), decodeWord (0x9#4 ++ rd ++ rs ++ rt) = .lw rd rs (rs ++ rt)) ∧
  (∀ (rd rs : Reg) (imm8 : BitVec 8) (s : State), (effectiveAddress s rs imm8).toNat ≤ 4094 →
    ∃ b0 b1 t, exec (.lw rd rs imm8) s = .next t ∧
      s.mem.readByte (effectiveAddress s rs imm8) = some b0 ∧ s.mem.readByte (effectiveAddress s rs imm8 + 1) = some b1 ∧
      (t.x rd).toNat = b0.toNat * 256 + b1.toNat ∧ (∀ i, i ≠ rd → t.x i = s.x i) ∧ SameMemory s t ∧ SameControl s t) ∧
  (∀ (rd rs : Reg) (imm8 : BitVec 8) (s : State), 4094 < (effectiveAddress s rs imm8).toNat →
    ∃ t, exec (.lw rd rs imm8) s = .next t ∧
      FaultEffect (.boundsData (s.pc - 2) (encode (.lw rd rs imm8)) (effectiveAddress s rs imm8)) s t)

/-- 43_load_store R162: SW's word; in range it stores the data register big-endian at the effective address and changes no other
byte and no register; above 4094 it raises BoundsFault and writes neither byte. The report in the fault clause (the address 2
before slot 15 and the encoding of the term, in every state and for a term whose `rs` is not the high nibble of `imm8` too) is the
model's: log entries 9 (DEDUCED) and 11 (DESIGN CHOICE); 60_exceptions section 1 gives the report of a fetched instruction. -/
def Obligations.StoreWordStoresOrFaults : Prop :=
  (∀ (ra rs rt : Reg), decodeWord (0xA#4 ++ ra ++ rs ++ rt) = .sw ra rs (rs ++ rt)) ∧
  (∀ (ra rs : Reg) (imm8 : BitVec 8) (s : State), (effectiveAddress s rs imm8).toNat ≤ 4094 →
    ∃ hi lo t, exec (.sw ra rs imm8) s = .next t ∧
      t.mem.readByte (effectiveAddress s rs imm8) = some hi ∧ t.mem.readByte (effectiveAddress s rs imm8 + 1) = some lo ∧
      hi.toNat = (s.x ra).toNat / 256 ∧ lo.toNat = (s.x ra).toNat % 256 ∧
      (∀ a : Word, a ≠ effectiveAddress s rs imm8 → a ≠ effectiveAddress s rs imm8 + 1 →
        t.mem.readByte a = s.mem.readByte a) ∧ SameRegisters s t ∧ SameControl s t) ∧
  (∀ (ra rs : Reg) (imm8 : BitVec 8) (s : State), 4094 < (effectiveAddress s rs imm8).toNat →
    ∃ t, exec (.sw ra rs imm8) s = .next t ∧
      FaultEffect (.boundsData (s.pc - 2) (encode (.sw ra rs imm8)) (effectiveAddress s rs imm8)) s t)

/-! ### Control transfer and the unassigned opcodes -/

/-- 44_control_transfer, BZ (R170, the spec's decision D8): a register that is 0 in all 16 bits sends the program counter to the
advanced one plus the signed offset, modulo 65536; any other register leaves everything as it was. -/
def Obligations.BranchIfZeroTestsTheRegister : Prop :=
  ∀ (ra : Reg) (imm8 : BitVec 8) (s : State), decodeWord (0xB#4 ++ ra ++ imm8) = .bz ra imm8 ∧
    ∃ t, exec (.bz ra imm8) s = .next t ∧
      (t.pc.toNat : Int) = (if (s.x ra).toNat = 0 then (s.pc.toNat + imm8.toInt) % 65536 else s.pc.toNat) ∧
      (∀ i, i ≠ Config.pcIdx → t.x i = s.x i) ∧ SameMemory s t ∧ SameControl s t

/-- 44_control_transfer, JR (R171, the field being the spec's decision D9): the register becomes the program counter, whatever
the low byte holds; nothing else changes. -/
def Obligations.JumpRegisterIgnoresTheLowByte : Prop :=
  ∀ (ra : Reg) (low : BitVec 8) (s : State), decodeWord (0xC#4 ++ ra ++ low) = .jr ra low ∧
    ∃ t, exec (.jr ra low) s = .next t ∧ t.pc = s.x ra ∧
      (∀ i, i ≠ Config.pcIdx → t.x i = s.x i) ∧ SameMemory s t ∧ SameControl s t

/-- 44_control_transfer, HALT (R172, no report being the spec's decision D22): the mode becomes Halted, whatever the low twelve
bits hold; no report is sent and nothing else changes. -/
def Obligations.HaltOnlyHalts : Prop :=
  ∀ (low : BitVec 12) (s : State), decodeWord (0xD#4 ++ low) = .halt low ∧
    ∃ t, exec (.halt low) s = .next t ∧ t.mode = .halted ∧ t.report = s.report ∧
      SameRegisters s t ∧ SameMemory s t ∧ SameHostSide s t

/-- 44_control_transfer section on the unassigned opcodes, as the execution of the two rows: both raise DecodeFault and write
nothing. That the report's address is 2 before slot 15 in every state, one that no fetch prepared included, and its word the
encoding of the row, is the model's: log entry 9 (DEDUCED); 60_exceptions section 1 gives the report of a fetched instruction. -/
def Obligations.UnassignedOpcodesRaiseDecodeFault : Prop :=
  ∀ (low : BitVec 12) (s : State),
    (∃ t, exec (.unassignedE low) s = .next t ∧ FaultEffect (.decode (s.pc - 2) (0xE#4 ++ low)) s t) ∧
    (∃ t, exec (.unassignedF low) s = .next t ∧ FaultEffect (.decode (s.pc - 2) (0xF#4 ++ low)) s t)

/-- 44_control_transfer R173, 60_exceptions R222: a step that fetches a word of opcode 0xE or 0xF leaves the program counter 2
further, every other register and all memory unchanged, the mode Halted and the report (DecodeFault, pc0, w); and no other step
sends that report. -/
def Obligations.StepOnUnassignedWordHalts : Prop :=
  (∀ (s : State) (w : Word), s.Steps → s.mem.readWord s.pc = some w → 0xE000 ≤ w.toNat →
    ∃ t, step s = .next t ∧ t.pc = s.pc + 2 ∧ (∀ i, i ≠ Config.pcIdx → t.x i = s.x i) ∧ SameMemory s t ∧
      t.mode = .halted ∧ t.report = some (.decode s.pc w)) ∧
  (∀ (s t : State) (a v : Word), s.Steps → s.report = none → step s = .next t → t.report = some (.decode a v) →
    ∃ w, s.mem.readWord s.pc = some w ∧ 0xE000 ≤ w.toNat)

/-- 30_encoding section 5 and 44_control_transfer R171's corner case (derived there): a step of `JR r15` changes nothing of the
engine but the program counter's advance. -/
def Obligations.JumpToProgramCounterOnlyAdvances : Prop :=
  ∀ (s : State) (w : Word), s.Steps → s.mem.readWord s.pc = some w → w.toNat / 256 = 0xCF →
    ∃ t, step s = .next t ∧ t.pc = s.pc + 2 ∧ (∀ i, i ≠ Config.pcIdx → t.x i = s.x i) ∧ SameMemory s t ∧
      t.mode = s.mode ∧ t.report = s.report

/-! ### The step -/

/-- A step runs the decoded instruction: where the next grant performs a `Step()` and the two bytes at the program counter
decode to a well-formed instruction `i`, the model's step is `exec i` in the state with the request taken off the schedule
and the program counter advanced, and then the new state's snapshot is handed over (40_step_cycle R110). Two parts are the
model's: the field that keeps the snapshot is log entry 6 (DESIGN CHOICE), and the answer field (done after `step_once`, as it was
after a tick) is log entry 5 (DESIGN CHOICE). -/
def Obligations.StepRunsTheDecodedInstruction : Prop :=
  ∀ (s t : State) (b0 b1 : Byte) (i : Instr), s.Steps → s.pc.toNat ≤ 4094 →
    s.mem.readByte s.pc = some b0 → s.mem.readByte (s.pc + 1) = some b1 →
    decode [b0, b1] = .ok (i, []) → i.WellFormed →
    exec i s.afterPop.advance = .next t →
    step s = .next { t with broadcast := some t.snapshot, answer := s.answerAfterStep }

/-- 40_step_cycle R112, 60_exceptions R223: a step that begins with the program counter above 4094 halts with the report
(BoundsFault, fetch, pc0); no register, the program counter included, and no byte of memory changes; and no other step sends
that report. -/
def Obligations.FetchOutOfRangeHalts : Prop :=
  (∀ s : State, s.Steps → 4094 < s.pc.toNat →
    ∃ t, step s = .next t ∧ t.mode = .halted ∧ t.report = some (.boundsFetch s.pc) ∧ SameRegisters s t ∧ SameMemory s t) ∧
  (∀ (s t : State) (a : Word), s.Steps → s.report = none → step s = .next t → t.report = some (.boundsFetch a) →
    4094 < s.pc.toNat)

/-- 60_exceptions R224: a step of LW or SW whose effective address is above 4094 (computed with the program counter already
advanced) halts with the report (BoundsFault, data, pc0, w, ea); the program counter is 2 further, every other register and
every byte of memory unchanged; and no other step sends that report. -/
def Obligations.DataAccessOutOfRangeHalts : Prop :=
  (∀ (s : State) (w : Word) (r rs : Reg) (imm8 : BitVec 8), s.Steps → s.mem.readWord s.pc = some w →
    decodeWord w = .lw r rs imm8 ∨ decodeWord w = .sw r rs imm8 →
    4094 < (effectiveAddress s.advance rs imm8).toNat →
    ∃ t, step s = .next t ∧ t.mode = .halted ∧
      t.report = some (.boundsData s.pc w (effectiveAddress s.advance rs imm8)) ∧ t.pc = s.pc + 2 ∧
      (∀ i, i ≠ Config.pcIdx → t.x i = s.x i) ∧ SameMemory s t) ∧
  (∀ (s t : State) (a v e : Word), s.Steps → s.report = none → step s = .next t → t.report = some (.boundsData a v e) →
    ∃ w r rs imm8, s.mem.readWord s.pc = some w ∧ (decodeWord w = .lw r rs imm8 ∨ decodeWord w = .sw r rs imm8) ∧
      4094 < (effectiveAddress s.advance rs imm8).toNat)

/-- 40_step_cycle R121: the mode after a step is Halted if the step raised a fault or executed HALT, and otherwise what it was.
The report being empty before, a fault raised is a report sent. -/
def Obligations.StepKeepsTheModeUnlessItHalts : Prop :=
  ∀ s t : State, s.Steps → s.report = none → step s = .next t →
    (t.report.isSome = true ∨ (∃ w, s.mem.readWord s.pc = some w ∧ (decodeWord w).isHalt = true) → t.mode = .halted) ∧
    (t.report = none → (∀ w, s.mem.readWord s.pc = some w → (decodeWord w).isHalt = false) → t.mode = s.mode)

/-- 40_step_cycle R122 (a faulting step included: the spec's decision D19): the snapshot handed over by a step is that of the
state the step produced. -/
def Obligations.StepHandsOverItsOwnResult : Prop :=
  ∀ s t : State, s.Steps → step s = .next t →
    ∃ sn, t.broadcast = some sn ∧ sn.mode = t.mode ∧ sn.running = (t.mode == .running) ∧ sn.pc = t.pc ∧ sn.flags = t.fl ∧
      (∀ i : Reg, sn.registers[i.toNat]'i.isLt = t.x i) ∧ sn.memoryWindow.length = Config.snapWindow.val ∧
      ∀ a : Word, (h : a.toNat < sn.memoryWindow.length) → t.mem.readByte a = some sn.memoryWindow[a.toNat]

/-! ### Whole-machine rules -/

/-- 40_step_cycle R123, 70_reset R262 in the model's terms: every instruction has an effect in every state, and every step of
the model goes on: no fault and no refusal ends a run (log entry 8). -/
def Obligations.EveryInstructionAndStepGoesOn : Prop :=
  (∀ (i : Instr) (s : State), ∃ t, exec i s = .next t) ∧ ∀ s : State, ∃ t, step s = .next t

/-- 10_state section 2's table of slots written (derived there): an instruction leaves every slot unchanged that the table does
not list for it, and never touches the host's side. -/
def Obligations.OnlyListedSlotsChange : Prop :=
  ∀ (i : Instr) (s t : State), exec i s = .next t →
    (∀ r : Reg, r ∉ i.slotsWritten → t.x r = s.x r) ∧ SameHostSide s t

/-- 20_memory section 3 and 43_load_store R163 (derived there): no instruction but SW changes a byte of memory; and SW changes
none but the two at its effective address. -/
def Obligations.OnlyStoreWordChangesMemory : Prop :=
  ∀ (i : Instr) (s t : State), exec i s = .next t →
    (i.stores = false → SameMemory s t) ∧
    ∀ ra rs imm8, i = .sw ra rs imm8 → ∀ a : Word, a ≠ effectiveAddress s rs imm8 → a ≠ effectiveAddress s rs imm8 + 1 →
      t.mem.readByte a = s.mem.readByte a

/-- 60_exceptions section 4 (the spec's decision D16): faults are precise: an instruction that sends a report has written no
register and no byte, and has halted the engine. -/
def Obligations.FaultingInstructionWritesNothing : Prop :=
  ∀ (i : Instr) (s t : State), exec i s = .next t → s.report = none → t.report.isSome = true →
    t.mode = .halted ∧ SameRegisters s t ∧ SameMemory s t

/-- The invariant of the engine is kept by every step of the model, whatever request is granted: canonical memory; a report only
while Halted, naming the instruction at which the engine stopped; consistent snapshots (60_exceptions section 4, 45_control
section 4; the canonical form is the model's, log entry 12). -/
def Obligations.EveryStepKeepsTheEngineInvariant : Prop :=
  ∀ s t : State, EngineInv s → step s = .next t → EngineInv t

/-- The reset state meets the invariant of the engine. -/
def Obligations.ResetMeetsTheEngineInvariant : Prop := EngineInv State.reset

/-! ### Reset and the control port -/

/-- 70_reset R251: the reset state in full. -/
def Obligations.ResetStateIsAsSpecified : Prop :=
  (∀ i : Reg, i.toNat ≤ 13 → State.reset.x i = 0) ∧ State.reset.zFlag = false ∧ State.reset.nFlag = false ∧
  State.reset.x 14 = 0x1000 ∧ State.reset.x 15 = 0 ∧
  (∀ a : Word, a.toNat ≤ 4095 → State.reset.mem.readByte a = some 0) ∧ State.reset.mode = .paused

/-- 45_control section 1 (R191, the spec's decision D23): a granted tick while Running is one `Step()`; while Paused or Halted it
does nothing at all but leave the schedule. That an empty schedule grants a tick too is the model's, log entry 2 (DEDUCED). -/
def Obligations.TickStepsOnlyWhileRunning : Prop :=
  ∀ s : State, s.nextRequest = .tick →
    (s.mode = .running → step s = engineStep s.afterPop) ∧
    (s.mode ≠ .running → step s = .next { s with schedule := s.schedule.tail })

/-- 45_control section 2, for an empty schedule: a Halted engine's whole state stays as it was, however many grants are made. That
each grant of an empty schedule is a tick is the model's: log entry 2 (DEDUCED). Ticks that stand in the schedule are among the
requests of `HaltedIsTerminalUntilResetOrLoad`. -/
def Obligations.HaltedTicksChangeNothing : Prop :=
  ∀ (n : Nat) (s : State), s.mode = .halted → s.schedule = [] → Host.Core.run core n s = .next s

/-- 45_control sections 2 and 3: a Halted engine stays exactly as the halting step left it, whatever is granted, until a `reset` or an
accepted load. The rejection of `start_run` and the idle `pause` are the spec's decision D15, a rejected load that keeps the state its
decision D14. The model's are the ticks granted past the end of the schedule (log entry 2, DEDUCED), the report (log entry 4), the
snapshot kept (log entry 6) and the schedule (log entry 1, these three DESIGN CHOICE). -/
def Obligations.HaltedIsTerminalUntilResetOrLoad : Prop :=
  ∀ (n : Nat) (s : State), s.mode = .halted → (∀ r ∈ s.schedule, r.KeepsHalted) →
    ∃ t, Host.Core.run core n s = .next t ∧ t.mode = .halted ∧ t.report = s.report ∧ SameRegisters s t ∧ SameMemory s t ∧
      t.broadcast = s.broadcast ∧ t.schedule = s.schedule.drop n

/-- 45_control section 2 (R195, the spec's decision D15): `start_run` by mode; no register and no byte changes in any case. The spec
names the rejection only: that a command carried out is answered done is the model's, log entry 5 (DESIGN CHOICE). -/
def Obligations.StartRunByMode : Prop :=
  ∀ (s : State), s.nextRequest = .startRun →
    ∃ t, step s = .next t ∧ SameRegisters s t ∧ SameMemory s t ∧ t.report = s.report ∧ t.schedule = s.schedule.tail ∧
      (s.mode = .paused → t.mode = .running ∧ t.answer = some .done) ∧
      (s.mode = .running → t.mode = .running ∧ t.answer = some .done) ∧
      (s.mode = .halted → t.mode = .halted ∧ t.answer = some .runRejected)

/-- 45_control section 2 (R196, the spec's decision D15): `pause` by mode; no register and no byte changes in any case. That the
command is answered done is the model's, log entry 5 (DESIGN CHOICE). -/
def Obligations.PauseByMode : Prop :=
  ∀ (s : State), s.nextRequest = .pause →
    ∃ t, step s = .next t ∧ SameRegisters s t ∧ SameMemory s t ∧ t.report = s.report ∧ t.schedule = s.schedule.tail ∧
      t.answer = some .done ∧ t.mode = if s.mode = .running then .paused else s.mode

/-- 45_control R198: `step_once` while Halted is answered StepRejected and changes nothing. -/
def Obligations.StepOnceIsRejectedWhileHalted : Prop :=
  ∀ (s : State), s.nextRequest = .stepOnce → s.mode = .halted →
    ∃ t, step s = .next t ∧ t.answer = some .stepRejected ∧ t.mode = .halted ∧ t.report = s.report ∧ SameRegisters s t ∧
      SameMemory s t ∧ t.broadcast = s.broadcast

/-- 45_control section 3 (R199, the spec's decision D13): `reset` puts registers, memory and mode back to the creation state in
every mode. Two parts are the model's: the answer done is log entry 5, and the cleared report, of a field that 60_exceptions R229
lets a model keep, is log entry 4 (both DESIGN CHOICE). -/
def Obligations.ResetCommandRestoresTheCreationState : Prop :=
  ∀ (s : State), s.nextRequest = .reset →
    ∃ t, step s = .next t ∧ (∀ i : Reg, t.x i = if i = Config.spIdx then 0x1000 else 0) ∧
      (∀ a : Word, a.toNat ≤ 4095 → t.mem.readByte a = some 0) ∧ t.mode = .paused ∧ t.report = none ∧
      t.answer = some .done ∧ t.schedule = s.schedule.tail

/-- 45_control section 3 (R200, R202, the spec's decision D14): an accepted load, in every mode, copies the bytes to `base` on,
sets slot 15 to `base`, leaves the mode Paused, and leaves every other register and every byte outside the range alone. Two parts are
the model's: the answer done is log entry 5, and the cleared report, of a field that 60_exceptions R229 lets a model keep, is log
entry 4 (both DESIGN CHOICE). -/
def Obligations.LoadProgramCopiesTheBytes : Prop :=
  ∀ (s : State) (bytes : List Byte) (base : Word), s.nextRequest = .loadProgram bytes base →
    base.toNat + bytes.length ≤ 4096 →
    ∃ t, step s = .next t ∧
      (∀ a : Word, (h : a.toNat - base.toNat < bytes.length) → base.toNat ≤ a.toNat →
        t.mem.readByte a = some bytes[a.toNat - base.toNat]) ∧
      (∀ a : Word, a.toNat < base.toNat ∨ base.toNat + bytes.length ≤ a.toNat → t.mem.readByte a = s.mem.readByte a) ∧
      t.pc = base ∧ (∀ i, i ≠ Config.pcIdx → t.x i = s.x i) ∧ t.mode = .paused ∧ t.report = none ∧
      t.answer = some .done ∧ t.schedule = s.schedule.tail

/-- 45_control section 3 (R201, the spec's decision D14): a load that would pass the end of memory is rejected whole. -/
def Obligations.OversizedLoadIsRejectedWhole : Prop :=
  ∀ (s : State) (bytes : List Byte) (base : Word), s.nextRequest = .loadProgram bytes base →
    4096 < base.toNat + bytes.length →
    ∃ t, step s = .next t ∧ t.answer = some .loadRejected ∧ SameRegisters s t ∧ SameMemory s t ∧ t.mode = s.mode ∧
      t.report = s.report ∧ t.schedule = s.schedule.tail

/-- 30_encoding R102: the bytes of `k` instructions are `2 * k`, byte `2 * i` the high one of instruction `i`; loaded at `base`, the
word of instruction `i` is what a fetch at `base + 2 * i` reads, and the program counter is `base`. -/
def Obligations.LoadedProgramIsItsWordsInOrder : Prop :=
  ∀ (is : List Instr) (s : State) (base : Word),
    (programBytes is).length = 2 * is.length ∧
    (∀ k, (h : k < is.length) → ∃ hi lo, (programBytes is)[2 * k]? = some hi ∧ (programBytes is)[2 * k + 1]? = some lo ∧
      (encode is[k]).toNat = hi.toNat * 256 + lo.toNat) ∧
    (s.nextRequest = .loadProgram (programBytes is) base → base.toNat + 2 * is.length ≤ 4096 →
      ∃ t, step s = .next t ∧ t.pc = base ∧
        ∀ k, (h : k < is.length) → t.mem.readWord (base + BitVec.ofNat 16 (2 * k)) = some (encode is[k]))

/-- 45_control section 4 (R205, the mode in it being the spec's decision D20): `get_snapshot` answers the registers, the mode,
`running`, `pc`, the flags and the memory window, and changes no engine state. -/
def Obligations.GetSnapshotAnswersTheState : Prop :=
  ∀ (s : State), s.nextRequest = .getSnapshot →
    ∃ t sn, step s = .next t ∧ t.answer = some (.snapshot sn) ∧ sn.mode = s.mode ∧ sn.running = (s.mode == .running) ∧
      sn.pc = s.x 15 ∧ sn.flags = s.x 13 ∧ (∀ i : Reg, sn.registers[i.toNat]'i.isLt = s.x i) ∧
      sn.memoryWindow.length = Config.snapWindow.val ∧
      (∀ a : Word, (h : a.toNat < sn.memoryWindow.length) → s.mem.readByte a = some sn.memoryWindow[a.toNat]) ∧
      SameRegisters s t ∧ SameMemory s t ∧ t.mode = s.mode ∧ t.report = s.report

/-- 45_control section 5 (R207, derived there): `n` granted `step_once` requests advance the program counter by exactly `2 * n`
when each of those steps is sequential, and leave the mode as it was. -/
def Obligations.StepOnceRequestsAdvanceByTwoEach : Prop :=
  ∀ (n : Nat) (s : State) (rest : List Request), s.mode ≠ .halted →
    s.schedule = List.replicate n .stepOnce ++ rest →
    (∀ k u, k < n → Host.Core.run core k s = .next u → u.StepsSequentially) →
    ∃ t, Host.Core.run core n s = .next t ∧ t.pc = s.pc + BitVec.ofNat 16 (2 * n) ∧ t.mode = s.mode ∧ t.schedule = rest
end

