-- ==== Sys2Proof/Laws/Decode.lean ====
section
/-! SUPPORT. The small lemmas of the byte order, of the field layout and of the opcode map. -/

namespace Sys2Proof

/-! ### Byte order -/

/-- Concatenation as a number, the left operand in the high bits (00_scope R8). -/
theorem append_toNat {n k : Nat} (a : BitVec n) (b : BitVec k) : (a ++ b).toNat = a.toNat * 2 ^ k + b.toNat := by
  rw [BitVec.toNat_append, ← Nat.shiftLeft_add_eq_or_of_lt b.isLt, Nat.shiftLeft_eq]

/-- The big-endian value of two bytes (20_memory R53). -/
theorem wordOfBytes_toNat (hi lo : Byte) : (wordOfBytes hi lo).toNat = hi.toNat * 256 + lo.toNat :=
  append_toNat hi lo

theorem highByte_toNat (w : Word) : (highByte w).toNat = w.toNat / 256 := by
  have := w.isLt
  simp only [highByte, BitVec.extractLsb'_toNat, Nat.shiftRight_eq_div_pow]
  omega

theorem lowByte_toNat (w : Word) : (lowByte w).toNat = w.toNat % 256 := by
  simp only [lowByte, BitVec.extractLsb'_toNat, Nat.shiftRight_eq_div_pow]
  omega

@[simp] theorem wordOfBytes_high_low (w : Word) : wordOfBytes (highByte w) (lowByte w) = w := by
  apply BitVec.eq_of_toNat_eq
  rw [wordOfBytes_toNat, highByte_toNat, lowByte_toNat]
  omega

@[simp] theorem highByte_wordOfBytes (hi lo : Byte) : highByte (wordOfBytes hi lo) = hi := by
  apply BitVec.eq_of_toNat_eq
  have := lo.isLt
  rw [highByte_toNat, wordOfBytes_toNat]
  omega

@[simp] theorem lowByte_wordOfBytes (hi lo : Byte) : lowByte (wordOfBytes hi lo) = lo := by
  apply BitVec.eq_of_toNat_eq
  have := lo.isLt
  rw [lowByte_toNat, wordOfBytes_toNat]
  omega

/-! ### Fields of a word -/

theorem cutFields_opcode_toNat (w : Word) : (cutFields w).opcode.toNat = w.toNat / 4096 := by
  simp only [cutFields, BitVec.extractLsb'_toNat, Nat.shiftRight_eq_div_pow]
  have := w.isLt
  omega

theorem cutFields_first_toNat (w : Word) : (cutFields w).first.toNat = w.toNat / 256 % 16 := by
  simp only [cutFields, BitVec.extractLsb'_toNat, Nat.shiftRight_eq_div_pow]

theorem cutFields_rs_toNat (w : Word) : (cutFields w).rs.toNat = w.toNat / 16 % 16 := by
  simp only [cutFields, BitVec.extractLsb'_toNat, Nat.shiftRight_eq_div_pow]

theorem cutFields_rt_toNat (w : Word) : (cutFields w).rt.toNat = w.toNat % 16 := by
  simp only [cutFields, BitVec.extractLsb'_toNat, Nat.shiftRight_eq_div_pow]
  omega

theorem cutFields_imm8_toNat (w : Word) : (cutFields w).imm8.toNat = w.toNat % 256 := by
  simp only [cutFields, BitVec.extractLsb'_toNat, Nat.shiftRight_eq_div_pow]
  omega

/-! ### The three layouts of a word, cut back into fields -/

theorem cutFields_three (op rd rs rt : BitVec 4) :
    cutFields (op ++ rd ++ rs ++ rt) = ⟨op, rd, rs, rt, rs ++ rt⟩ := by
  simp only [cutFields, Fields.mk.injEq]
  refine ⟨?_, ?_, ?_, ?_, ?_⟩ <;>
  · apply BitVec.eq_of_toNat_eq
    have h1 := op.isLt; have h2 := rd.isLt; have h3 := rs.isLt; have h4 := rt.isLt
    simp only [BitVec.extractLsb'_toNat, append_toNat, Nat.shiftRight_eq_div_pow]
    omega

theorem cutFields_imm (op rd : BitVec 4) (imm8 : BitVec 8) :
    cutFields (op ++ rd ++ imm8) = ⟨op, rd, imm8.extractLsb' 4 4, imm8.extractLsb' 0 4, imm8⟩ := by
  simp only [cutFields, Fields.mk.injEq]
  refine ⟨?_, ?_, ?_, ?_, ?_⟩ <;>
  · apply BitVec.eq_of_toNat_eq
    have h1 := op.isLt; have h2 := rd.isLt; have h3 := imm8.isLt
    simp only [BitVec.extractLsb'_toNat, append_toNat, Nat.shiftRight_eq_div_pow]
    omega

theorem cutFields_ignored (op : BitVec 4) (ig : BitVec 12) :
    (cutFields (op ++ ig)).opcode = op ∧ (cutFields (op ++ ig)).first ++ (cutFields (op ++ ig)).imm8 = ig := by
  constructor <;>
  · apply BitVec.eq_of_toNat_eq
    have h1 := op.isLt; have h2 := ig.isLt
    simp only [cutFields, BitVec.extractLsb'_toNat, append_toNat, Nat.shiftRight_eq_div_pow]
    omega

/-- The opcode nibble of a decoded instruction is the opcode field of the word. -/
theorem instrOfFields_opcode (f : Fields) : (instrOfFields f).opcode = f.opcode := by
  obtain ⟨op, a, b, c, d⟩ := f
  obtain ⟨⟨n, hn⟩⟩ := op
  interval_cases n <;> rfl

end Sys2Proof
end

