-- ==== Sys2Proof/Laws/State.lean ====
section
/-! SUPPORT. One lemma per field per update of State, true by rfl, and what a register reads after each write; so that no
later proof unfolds a record update. -/

namespace Sys2Proof.Machine

variable (s : State)

@[simp] theorem setX_mem (i : Reg) (v : Word) : (s.setX i v).mem = s.mem := rfl
@[simp] theorem setX_mode (i : Reg) (v : Word) : (s.setX i v).mode = s.mode := rfl
@[simp] theorem setX_report (i : Reg) (v : Word) : (s.setX i v).report = s.report := rfl
@[simp] theorem setX_answer (i : Reg) (v : Word) : (s.setX i v).answer = s.answer := rfl
@[simp] theorem setX_broadcast (i : Reg) (v : Word) : (s.setX i v).broadcast = s.broadcast := rfl
@[simp] theorem setX_schedule (i : Reg) (v : Word) : (s.setX i v).schedule = s.schedule := rfl

@[simp] theorem advance_mem : s.advance.mem = s.mem := rfl
@[simp] theorem advance_mode : s.advance.mode = s.mode := rfl
@[simp] theorem advance_report : s.advance.report = s.report := rfl
@[simp] theorem advance_answer : s.advance.answer = s.answer := rfl
@[simp] theorem advance_broadcast : s.advance.broadcast = s.broadcast := rfl
@[simp] theorem advance_schedule : s.advance.schedule = s.schedule := rfl

@[simp] theorem aluWrite_mem (rd : Reg) (r : Word) : (s.aluWrite rd r).mem = s.mem := rfl
@[simp] theorem aluWrite_mode (rd : Reg) (r : Word) : (s.aluWrite rd r).mode = s.mode := rfl
@[simp] theorem aluWrite_report (rd : Reg) (r : Word) : (s.aluWrite rd r).report = s.report := rfl
@[simp] theorem aluWrite_answer (rd : Reg) (r : Word) : (s.aluWrite rd r).answer = s.answer := rfl
@[simp] theorem aluWrite_broadcast (rd : Reg) (r : Word) : (s.aluWrite rd r).broadcast = s.broadcast := rfl
@[simp] theorem aluWrite_schedule (rd : Reg) (r : Word) : (s.aluWrite rd r).schedule = s.schedule := rfl

@[simp] theorem raise_regs (f : Fault) : (s.raise f).regs = s.regs := rfl
@[simp] theorem raise_mem (f : Fault) : (s.raise f).mem = s.mem := rfl
@[simp] theorem raise_mode (f : Fault) : (s.raise f).mode = .halted := rfl
@[simp] theorem raise_report (f : Fault) : (s.raise f).report = some f := rfl
@[simp] theorem raise_answer (f : Fault) : (s.raise f).answer = s.answer := rfl
@[simp] theorem raise_broadcast (f : Fault) : (s.raise f).broadcast = s.broadcast := rfl
@[simp] theorem raise_schedule (f : Fault) : (s.raise f).schedule = s.schedule := rfl
@[simp] theorem raise_x (f : Fault) (i : Reg) : (s.raise f).x i = s.x i := rfl
@[simp] theorem raise_pc (f : Fault) : (s.raise f).pc = s.pc := rfl

@[simp] theorem handOver_regs : s.handOver.regs = s.regs := rfl
@[simp] theorem handOver_mem : s.handOver.mem = s.mem := rfl
@[simp] theorem handOver_mode : s.handOver.mode = s.mode := rfl
@[simp] theorem handOver_report : s.handOver.report = s.report := rfl
@[simp] theorem handOver_answer : s.handOver.answer = s.answer := rfl
@[simp] theorem handOver_broadcast : s.handOver.broadcast = some s.snapshot := rfl
@[simp] theorem handOver_schedule : s.handOver.schedule = s.schedule := rfl
@[simp] theorem handOver_x (i : Reg) : s.handOver.x i = s.x i := rfl
@[simp] theorem handOver_pc : s.handOver.pc = s.pc := rfl

@[simp] theorem answerWith_regs (a : Answer) : (s.answerWith a).regs = s.regs := rfl
@[simp] theorem answerWith_mem (a : Answer) : (s.answerWith a).mem = s.mem := rfl
@[simp] theorem answerWith_mode (a : Answer) : (s.answerWith a).mode = s.mode := rfl
@[simp] theorem answerWith_report (a : Answer) : (s.answerWith a).report = s.report := rfl
@[simp] theorem answerWith_answer (a : Answer) : (s.answerWith a).answer = some a := rfl
@[simp] theorem answerWith_broadcast (a : Answer) : (s.answerWith a).broadcast = s.broadcast := rfl
@[simp] theorem answerWith_schedule (a : Answer) : (s.answerWith a).schedule = s.schedule := rfl
@[simp] theorem answerWith_x (a : Answer) (i : Reg) : (s.answerWith a).x i = s.x i := rfl
@[simp] theorem answerWith_pc (a : Answer) : (s.answerWith a).pc = s.pc := rfl

@[simp] theorem afterPop_regs : s.afterPop.regs = s.regs := rfl
@[simp] theorem afterPop_mem : s.afterPop.mem = s.mem := rfl
@[simp] theorem afterPop_mode : s.afterPop.mode = s.mode := rfl
@[simp] theorem afterPop_report : s.afterPop.report = s.report := rfl
@[simp] theorem afterPop_answer : s.afterPop.answer = s.answer := rfl
@[simp] theorem afterPop_broadcast : s.afterPop.broadcast = s.broadcast := rfl
@[simp] theorem afterPop_schedule : s.afterPop.schedule = s.schedule.tail := rfl
@[simp] theorem afterPop_x (i : Reg) : s.afterPop.x i = s.x i := rfl
@[simp] theorem afterPop_pc : s.afterPop.pc = s.pc := rfl

/-- What a slot reads after a write of a slot (10_state R21). -/
@[simp] theorem x_setX (i j : Reg) (v : Word) : (s.setX i v).x j = if j = i then v else s.x j := by
  by_cases h : j = i
  · subst h
    simp [State.x, State.setX]
  · have hne : i.toNat ≠ j.toNat := fun e => h (BitVec.eq_of_toNat_eq e.symm)
    simp [State.x, State.setX, h, hne]

theorem x_def (i : Reg) : s.x i = s.regs[i.toNat]'i.isLt := rfl

/-- Registers that read alike in every slot are the same register file. -/
theorem regs_ext {s t : State} (h : ∀ i : Reg, s.x i = t.x i) : s.regs = t.regs := by
  apply Vector.ext
  intro k hk
  have hk' : k < 2 ^ 4 := hk
  have hk2 : (BitVec.ofNat 4 k).toNat = k := Nat.mod_eq_of_lt hk'
  have := h (BitVec.ofNat 4 k)
  simpa only [State.x, hk2] using this

/-- The advance adds 2 to the program counter and changes no other slot (40_step_cycle R114). -/
@[simp] theorem advance_x (i : Reg) : s.advance.x i = if i = Config.pcIdx then s.pc + 2 else s.x i := by
  simp [State.advance]

@[simp] theorem advance_pc : s.advance.pc = s.pc + 2 := by simp [State.pc]

@[simp] theorem fetchedFrom_advance : s.advance.fetchedFrom = s.pc := by
  simp [State.fetchedFrom]

/-- What a slot reads after an ALU-class operation: the result, then the flag update over slot 13 (40_step_cycle R119). -/
theorem aluWrite_x (rd i : Reg) (r : Word) :
    (s.aluWrite rd r).x i =
      if i = Config.flIdx then flagsAfter (if rd = Config.flIdx then r else s.fl) r
      else if i = rd then r else s.x i := by
  have hfl : (s.setX rd r).fl = if rd = Config.flIdx then r else s.fl := by
    rw [State.fl, x_setX]
    exact if_congr eq_comm rfl rfl
  rw [State.aluWrite, State.setZN, x_setX, hfl, x_setX]

end Sys2Proof.Machine
end

