-- ==== Sys2Proof/Laws/Memory.lean ====
section
/-! SUPPORT. What the memory operations do, once each, and that every one of them keeps the canonical form. -/

namespace Sys2Proof.Machine.Memory

/-! ### One byte -/

theorem get_insert (m : Memory) (a b : Nat) (v : Byte) :
    (Memory.insert m a v).get b = if b = a then v else m.get b := by
  induction m with
  | nil => simp [Memory.insert, Memory.get]
  | cons c m ih =>
    simp only [Memory.insert]
    split
    · simp [Memory.get]
    · split
      · rename_i h; subst h
        by_cases hb : b = c.1 <;> simp [Memory.get, hb]
      · rename_i hne
        by_cases hb : b = c.1
        · have : b ≠ a := fun e => hne (e ▸ hb)
          simp only [Memory.get, hb, if_true]
          simp [hb ▸ this]
        · simp only [Memory.get, hb, if_false, ih]

theorem get_filter (m : Memory) (a b : Nat) :
    Memory.get (m.filter (fun c => c.1 != a)) b = if b = a then Config.unlistedByte else m.get b := by
  induction m with
  | nil => simp [Memory.get]
  | cons c m ih =>
    by_cases hc : c.1 = a
    · rw [List.filter_cons_of_neg (by simp [hc]), ih]
      by_cases hb : b = a
      · simp [hb]
      · have : b ≠ c.1 := fun e => hb (e.trans hc)
        simp [hb, Memory.get, this]
    · rw [List.filter_cons_of_pos (by simp [hc])]
      by_cases hb : b = c.1
      · have : b ≠ a := fun e => hc (hb.symm.trans e)
        simp [Memory.get, hb, hc]
      · simp [Memory.get, ih, hb]

/-- A byte read after a byte written: the written value there, the old value everywhere else. -/
@[simp] theorem get_set (m : Memory) (a b : Nat) (v : Byte) :
    (m.set a v).get b = if b = a then v else m.get b := by
  unfold Memory.set
  split
  · rename_i h; subst h; exact get_filter m a b
  · exact get_insert m a b v

theorem mem_insert {m : Memory} {a : Nat} {v : Byte} {c : Host.Cell} (h : c ∈ Memory.insert m a v) :
    c = (a, v) ∨ c ∈ m := by
  induction m with
  | nil => simpa [Memory.insert] using h
  | cons d m ih =>
    simp only [Memory.insert] at h
    split at h
    · simpa using h
    · split at h
      · rcases List.mem_cons.mp h with h | h
        · exact .inl h
        · exact .inr (List.mem_cons_of_mem _ h)
      · rcases List.mem_cons.mp h with h | h
        · exact .inr (h ▸ List.mem_cons_self)
        · exact (ih h).imp id (List.mem_cons_of_mem _)

theorem insert_rising {m : Memory} {a : Nat} {v : Byte} (h : m.Pairwise (fun c d => c.1 < d.1)) :
    (Memory.insert m a v).Pairwise (fun c d => c.1 < d.1) := by
  induction m with
  | nil => simp [Memory.insert]
  | cons d m ih =>
    obtain ⟨hd, hm⟩ := List.pairwise_cons.mp h
    simp only [Memory.insert]
    split
    · rename_i hlt
      refine List.pairwise_cons.mpr ⟨fun c hc => ?_, h⟩
      rcases List.mem_cons.mp hc with rfl | hc
      · exact hlt
      · exact Nat.lt_trans hlt (hd c hc)
    · split
      · rename_i he
        exact List.pairwise_cons.mpr ⟨fun c hc => he ▸ hd c hc, hm⟩
      · rename_i hnl hne
        refine List.pairwise_cons.mpr ⟨fun c hc => ?_, ih hm⟩
        rcases mem_insert hc with rfl | hc
        · show d.1 < a; omega
        · exact hd c hc

/-- Writing a byte inside the memory keeps the canonical form. -/
theorem wf_set {m : Memory} (h : m.wf) {a : Nat} (ha : a < Config.cap) (v : Byte) : (m.set a v).wf := by
  unfold Memory.set
  split
  · exact ⟨h.1.filter _, fun c hc => h.2 c (List.mem_filter.mp hc).1⟩
  · rename_i hv
    refine ⟨insert_rising h.1, fun c hc => ?_⟩
    rcases mem_insert hc with rfl | hc
    · exact ⟨ha, hv⟩
    · exact h.2 c hc

/-- The memory of the reset state has the canonical form. -/
theorem wf_reset : State.reset.mem.wf := by decide

/-! ### Words -/

theorem readByte_eq (m : Memory) {a : Word} (h : a.toNat ≤ 4095) : m.readByte a = some (m.get a.toNat) := by
  simp [Memory.readByte, Config.cap, h]

theorem readByte_none (m : Memory) {a : Word} (h : 4095 < a.toNat) : m.readByte a = none := by
  simp [Memory.readByte, Config.cap]; omega

theorem readWord_eq (m : Memory) {a : Word} (h : a.toNat ≤ 4094) :
    m.readWord a = some (wordOfBytes (m.get a.toNat) (m.get (a.toNat + 1))) := by
  simp [Memory.readWord, Config.cap, h]

theorem readWord_none (m : Memory) {a : Word} (h : 4094 < a.toNat) : m.readWord a = none := by
  simp [Memory.readWord, Config.cap]; omega

theorem writeWord_eq (m : Memory) {a : Word} (h : a.toNat ≤ 4094) (v : Word) :
    m.writeWord a v = some ((m.set a.toNat (highByte v)).set (a.toNat + 1) (lowByte v)) := by
  simp [Memory.writeWord, Config.cap, h]

theorem writeWord_none (m : Memory) {a : Word} (h : 4094 < a.toNat) (v : Word) : m.writeWord a v = none := by
  simp [Memory.writeWord, Config.cap]; omega

/-- A word is read exactly when its address is at most 4094 (20_memory R51, R57). -/
theorem readWord_isSome (m : Memory) (a : Word) : (m.readWord a).isSome = true ↔ a.toNat ≤ 4094 := by
  simp [Memory.readWord, Config.cap]

/-- What a byte reads after the two writes of a word store (20_memory R58). -/
theorem get_of_writeWord {m m' : Memory} {a v : Word} (h : m.writeWord a v = some m') (b : Nat) :
    a.toNat ≤ 4094 ∧
      m'.get b = if b = a.toNat + 1 then lowByte v else if b = a.toNat then highByte v else m.get b := by
  simp only [Memory.writeWord, Config.cap, Option.ite_none_right_eq_some, Option.some.injEq] at h
  obtain ⟨ha, rfl⟩ := h
  exact ⟨ha, by simp⟩

/-- A word store keeps the canonical form. -/
theorem wf_writeWord {m m' : Memory} {a v : Word} (hm : m.wf) (h : m.writeWord a v = some m') : m'.wf := by
  simp only [Memory.writeWord, Config.cap, Option.ite_none_right_eq_some, Option.some.injEq] at h
  obtain ⟨ha, rfl⟩ := h
  exact wf_set (wf_set hm (by simp only [Config.cap]; omega) _) (by simp only [Config.cap]; omega) _

/-- A byte store keeps the canonical form. -/
theorem wf_writeByte {m m' : Memory} {a : Word} {v : Byte} (hm : m.wf) (h : m.writeByte a v = some m') : m'.wf := by
  simp only [Memory.writeByte, Config.cap, Option.ite_none_right_eq_some, Option.some.injEq] at h
  obtain ⟨ha, rfl⟩ := h
  exact wf_set hm (by simp only [Config.cap]; omega) _

/-! ### Byte sequences -/

/-- Copying a byte sequence that ends inside the memory keeps the canonical form. -/
theorem wf_storeBytes {m : Memory} (hm : m.wf) {a : Nat} {bs : List Byte} (h : a + bs.length ≤ Config.cap) :
    (m.storeBytes a bs).wf := by
  induction bs generalizing m a with
  | nil => exact hm
  | cons b bs ih =>
    simp only [List.length_cons] at h
    exact ih (wf_set hm (by omega) b) (by omega)

/-- An address outside the copied range reads as before. -/
theorem get_storeBytes_outside (m : Memory) {a b : Nat} {bs : List Byte} (h : b < a ∨ a + bs.length ≤ b) :
    (m.storeBytes a bs).get b = m.get b := by
  induction bs generalizing m a with
  | nil => rfl
  | cons c bs ih =>
    simp only [List.length_cons] at h
    rw [Memory.storeBytes, ih _ (by omega), get_set, if_neg (by omega)]

/-- The copied range reads as the byte sequence. -/
theorem get_storeBytes_inside (m : Memory) {a k : Nat} {bs : List Byte} (h : k < bs.length) :
    (m.storeBytes a bs).get (a + k) = bs[k] := by
  induction bs generalizing m a k with
  | nil => simp at h
  | cons c bs ih =>
    cases k with
    | zero =>
      rw [Memory.storeBytes, get_storeBytes_outside _ (by omega)]
      simp
    | succ k =>
      have := ih (m.set a c) (a := a + 1) (k := k) (by simpa using h)
      rw [Memory.storeBytes, show a + (k + 1) = a + 1 + k by omega, this]
      simp

end Sys2Proof.Machine.Memory
end

