-- ==== Sys2Proof/Laws/Exec.lean ====
section
/-! SUPPORT. For each shared operation the meanings rest on, one lemma that says once everything it does; and the cases of
the meanings that branch. -/

namespace Sys2Proof.Machine

/-! ### What is unchanged -/

theorem SameMemory.of_eq {s t : State} (h : t.mem = s.mem) : SameMemory s t := fun _ => by rw [h]

theorem SameHostSide.refl (s : State) : SameHostSide s s := ⟨rfl, rfl, rfl⟩

/-! ### Flags -/

theorem flagsAfter_zero (fl r : Word) : (flagsAfter fl r).getLsbD 0 = decide (r.toNat = 0) := by
  have hz : (r.toNat = 0) = (r = 0) := by simp [BitVec.toNat_eq]
  simp only [flagsAfter, zBit, nBit, hz]
  split <;> split <;> simp_all

theorem flagsAfter_neg (fl r : Word) : (flagsAfter fl r).getLsbD 1 = r.getLsbD 15 := by
  simp only [flagsAfter, zBit, nBit]
  split <;> split <;> simp_all

theorem flagsAfter_high (fl r : Word) {k : Nat} (h : 2 ≤ k) (hk : k < 16) :
    (flagsAfter fl r).getLsbD k = fl.getLsbD k := by
  simp only [flagsAfter, zBit, nBit]
  interval_cases k <;> split <;> split <;> simp

/-- Everything an ALU-class write does (40_step_cycle R118, R119). -/
theorem aluWrite_effect (s : State) (rd : Reg) (r : Word) : AluEffect rd r s (s.aluWrite rd r) := by
  have hfl : (s.aluWrite rd r).fl = flagsAfter (if rd = Config.flIdx then r else s.fl) r := by
    rw [State.fl, aluWrite_x, if_pos rfl]
  refine ⟨fun i hi => ?_, ?_, ?_, fun k h hk => ?_, SameMemory.of_eq rfl, rfl, rfl, rfl, rfl, rfl⟩
  · rw [aluWrite_x, if_neg hi]
  · rw [State.zFlag, hfl, flagsAfter_zero]
  · rw [State.nFlag, hfl, flagsAfter_neg]
  · rw [hfl, flagsAfter_high _ _ h hk]

/-- Everything raising a fault does (60_exceptions R221). -/
theorem raise_effect (s : State) (f : Fault) : FaultEffect f s (s.raise f) :=
  ⟨rfl, rfl, fun _ => rfl, SameMemory.of_eq rfl, rfl, rfl, rfl⟩

/-! ### Sign extension and the ALU's results as numbers -/

theorem sext16_toNat (v : BitVec 8) : (sext16 v).toNat = if v.toNat < 128 then v.toNat else v.toNat + 0xFF00 := by
  have h := v.isLt
  rw [sext16, BitVec.toNat_signExtend]
  by_cases hm : v.toNat < 128
  · have : v.msb = false := by rw [BitVec.msb_eq_decide]; simpa using hm
    simp only [this, hm]
    simp
    omega
  · have : v.msb = true := by rw [BitVec.msb_eq_decide]; simpa using hm
    simp only [this, hm]
    simp
    omega

theorem aluAdd_toNat (a b : Word) : (aluAdd a b).toNat = (a.toNat + b.toNat) % 65536 := by
  simp [aluAdd]

theorem aluSub_toNat (a b : Word) :
    (aluSub a b).toNat = if b.toNat ≤ a.toNat then a.toNat - b.toNat else a.toNat + 65536 - b.toNat := by
  have ha := a.isLt; have hb := b.isLt
  rw [aluSub, BitVec.toNat_sub]
  split <;> omega

theorem aluSll_toNat (a b : Word) : (aluSll a b).toNat = if b.toNat ≤ 15 then a.toNat * 2 ^ b.toNat % 65536 else 0 := by
  rw [aluSll]
  split <;> simp [Nat.shiftLeft_eq]

theorem aluSrl_toNat (a b : Word) : (aluSrl a b).toNat = if b.toNat ≤ 15 then a.toNat / 2 ^ b.toNat else 0 := by
  rw [aluSrl]
  split <;> simp [Nat.shiftRight_eq_div_pow]

/-! ### The meanings that branch -/

theorem execLw_inRange {rd rs : Reg} {imm8 : BitVec 8} {s : State} (h : (effectiveAddress s rs imm8).toNat ≤ 4094) :
    execLw rd rs imm8 s = .next (s.setX rd
      (wordOfBytes (s.mem.get (effectiveAddress s rs imm8).toNat) (s.mem.get ((effectiveAddress s rs imm8).toNat + 1)))) := by
  rw [execLw, Memory.readWord_eq _ h]

theorem execLw_outOfRange {rd rs : Reg} {imm8 : BitVec 8} {s : State} (h : 4094 < (effectiveAddress s rs imm8).toNat) :
    execLw rd rs imm8 s =
      .next (s.raise (.boundsData s.fetchedFrom (encode (.lw rd rs imm8)) (effectiveAddress s rs imm8))) := by
  rw [execLw, Memory.readWord_none _ h]

theorem execSw_inRange {ra rs : Reg} {imm8 : BitVec 8} {s : State} (h : (effectiveAddress s rs imm8).toNat ≤ 4094) :
    execSw ra rs imm8 s = .next { s with
      mem := (s.mem.set (effectiveAddress s rs imm8).toNat (highByte (s.x ra))).set
        ((effectiveAddress s rs imm8).toNat + 1) (lowByte (s.x ra)) } := by
  rw [execSw, Memory.writeWord_eq _ h]

theorem execSw_outOfRange {ra rs : Reg} {imm8 : BitVec 8} {s : State} (h : 4094 < (effectiveAddress s rs imm8).toNat) :
    execSw ra rs imm8 s =
      .next (s.raise (.boundsData s.fetchedFrom (encode (.sw ra rs imm8)) (effectiveAddress s rs imm8))) := by
  rw [execSw, Memory.writeWord_none _ h]

theorem execBz_taken {ra : Reg} {imm8 : BitVec 8} {s : State} (h : s.x ra = 0) :
    execBz ra imm8 s = .next (s.setX Config.pcIdx (branchTarget s imm8)) := by rw [execBz, if_pos h]

theorem execBz_notTaken {ra : Reg} {imm8 : BitVec 8} {s : State} (h : s.x ra ≠ 0) : execBz ra imm8 s = .next s := by
  rw [execBz, if_neg h]

end Sys2Proof.Machine
end

