-- ==== Sys2Proof/Laws/Control.lean ====
section
/-! SUPPORT. The step procedure and the grants, one lemma per case. -/

namespace Sys2Proof.Machine

/-- What an outcome passed on can be. -/
theorem onNext_eq_next {o : Host.Outcome State Fault Refusal} {f : State → State} {t : State} :
    onNext o f = .next t ↔ ∃ u, o = .next u ∧ f u = t := by
  cases o <;> simp [onNext]

/-- The fetch check fails: BoundsFault, nothing read, nothing advanced (40_step_cycle R112). -/
theorem engineStep_outOfRange {s : State} (h : 4094 < s.pc.toNat) :
    engineStep s = .next (s.raise (.boundsFetch s.pc)).handOver := by
  rw [engineStep, Memory.readWord_none _ h]

/-- The fetch check passes: the decoded instruction runs in the advanced state (40_step_cycle R113 to R116). -/
theorem engineStep_inRange {s : State} (h : s.pc.toNat ≤ 4094) :
    engineStep s = onNext
      (exec (decodeWord (wordOfBytes (s.mem.get s.pc.toNat) (s.mem.get (s.pc.toNat + 1)))) s.advance) State.handOver := by
  rw [engineStep, Memory.readWord_eq _ h]

/-- Everything a `Step()` can do, if it goes on. -/
theorem engineStep_cases {s t : State} (h : engineStep s = .next t) :
    (4094 < s.pc.toNat ∧ t = (s.raise (.boundsFetch s.pc)).handOver) ∨
    ∃ w u, s.mem.readWord s.pc = some w ∧ exec (decodeWord w) s.advance = .next u ∧ t = u.handOver := by
  rcases Nat.lt_or_ge 4094 s.pc.toNat with hp | hp
  · rw [engineStep_outOfRange hp] at h
    cases h
    exact .inl ⟨hp, rfl⟩
  · rw [engineStep_inRange hp] at h
    obtain ⟨u, hu, rfl⟩ := onNext_eq_next.mp h
    exact .inr ⟨_, u, Memory.readWord_eq _ hp, hu, rfl⟩

theorem grantTick_running {s : State} (h : s.mode = .running) : grantTick s = engineStep s := by
  rw [grantTick, if_pos h]

theorem grantTick_idle {s : State} (h : s.mode ≠ .running) : grantTick s = .next s := by
  rw [grantTick, if_neg h]

theorem grantStepOnce_halted {s : State} (h : s.mode = .halted) : grantStepOnce s = .next (s.answerWith .stepRejected) := by
  rw [grantStepOnce, if_pos h]

theorem grantStepOnce_runs {s : State} (h : s.mode ≠ .halted) :
    grantStepOnce s = onNext (engineStep s) (fun t => t.answerWith .done) := by
  rw [grantStepOnce, if_neg h]

theorem grantLoad_rejected {bytes : List Byte} {base : Word} {s : State} (h : 4096 < base.toNat + bytes.length) :
    grantLoad bytes base s = s.answerWith .loadRejected := by
  rw [grantLoad, if_neg (by simp only [Config.cap]; omega)]

theorem grantLoad_accepted {bytes : List Byte} {base : Word} {s : State} (h : base.toNat + bytes.length ≤ 4096) :
    grantLoad bytes base s =
      ({ s with mem := s.mem.storeBytes base.toNat bytes, mode := .paused, report := none }.setX Config.pcIdx
        base).answerWith .done := by
  rw [grantLoad, if_pos h]

/-- The snapshot of any state is consistent (45_control R205). -/
theorem snapshot_consistent (s : State) : s.snapshot.Consistent :=
  ⟨rfl, rfl, rfl, by simp [State.snapshot, Memory.window]⟩

/-- Placing a word makes it the word the next fetch reads. -/
theorem placeWord_readWord (s : State) (w : Word) : (s.placeWord w).mem.readWord (s.placeWord w).pc = some w := by
  have hp : (s.placeWord w).pc = s.placeAt := by simp [State.placeWord, State.pc]
  have ha : s.placeAt.toNat ≤ 4094 := by
    rw [State.placeAt]
    split
    · assumption
    · exact Nat.zero_le _
  rw [hp, Memory.readWord_eq _ ha]
  simp [State.placeWord, Memory.storeBytes]

/-- Placing a word makes the very next step run it. -/
theorem step_placeWord (s : State) (w : Word) :
    step (s.placeWord w) = onNext (exec (decodeWord w) (s.placeWord w).afterPop.advance) State.handOver := by
  have h : (s.placeWord w).afterPop.mem.readWord (s.placeWord w).afterPop.pc = some w := placeWord_readWord s w
  have hs : step (s.placeWord w) = engineStep (s.placeWord w).afterPop :=
    grantTick_running (s := (s.placeWord w).afterPop) rfl
  rw [hs, engineStep, h]

/-- No instruction looks at the schedule: executing after the request is taken off it is executing and then taking it off. -/
theorem exec_afterPop (i : Instr) (s : State) : exec i s.afterPop = onNext (exec i s) State.afterPop := by
  cases i <;> try rfl
  case lw rd rs imm8 =>
    rw [exec, exec, execLw, execLw, show s.afterPop.mem.readWord (effectiveAddress s.afterPop rs imm8) =
      s.mem.readWord (effectiveAddress s rs imm8) from rfl]
    split <;> rfl
  case sw ra rs imm8 =>
    rw [exec, exec, execSw, execSw, show s.afterPop.mem.writeWord (effectiveAddress s.afterPop rs imm8) (s.afterPop.x ra) =
      s.mem.writeWord (effectiveAddress s rs imm8) (s.x ra) from rfl]
    split <;> rfl
  case bz ra imm8 =>
    rw [exec, exec, execBz, execBz, afterPop_x]
    split <;> rfl

/-- A run of `n + 1` grants begins with one step. -/
theorem run_succ_of_next {s t : State} (h : step s = .next t) (n : Nat) :
    Host.Core.run core (n + 1) s = Host.Core.run core n t := by
  have h' : core.step s = .next t := h
  have hr := Host.Core.run.eq_2 core s n
  simp only [h'] at hr
  exact hr

end Sys2Proof.Machine
end

