-- ==== Sys2Proof/Laws/PerInstr.lean ====
section
/-! SUPPORT. The family OpcodeNibble: the top nibble of every instruction's word is its row's opcode, which is all that
the dispatch selects by (30_encoding R95, 40_step_cycle R116). One lemma per constructor. -/

namespace Sys2Proof.Laws.OpcodeNibble

/-- The opcode field of the encoded word is the opcode of the row. -/
def Statement (i : Instr) : Prop := (cutFields (encode i)).opcode = i.opcode

theorem add (rd rs rt : Reg) : Statement (.add rd rs rt) := by rw [Statement, encode, cutFields_three]; rfl
theorem sub (rd rs rt : Reg) : Statement (.sub rd rs rt) := by rw [Statement, encode, cutFields_three]; rfl
theorem and (rd rs rt : Reg) : Statement (.and rd rs rt) := by rw [Statement, encode, cutFields_three]; rfl
theorem or (rd rs rt : Reg) : Statement (.or rd rs rt) := by rw [Statement, encode, cutFields_three]; rfl
theorem xor (rd rs rt : Reg) : Statement (.xor rd rs rt) := by rw [Statement, encode, cutFields_three]; rfl
theorem sll (rd rs rt : Reg) : Statement (.sll rd rs rt) := by rw [Statement, encode, cutFields_three]; rfl
theorem srl (rd rs rt : Reg) : Statement (.srl rd rs rt) := by rw [Statement, encode, cutFields_three]; rfl
theorem addi (rd : Reg) (imm8 : BitVec 8) : Statement (.addi rd imm8) := by rw [Statement, encode, cutFields_imm]; rfl
theorem subi (rd : Reg) (imm8 : BitVec 8) : Statement (.subi rd imm8) := by rw [Statement, encode, cutFields_imm]; rfl
theorem lw (rd rs : Reg) (imm8 : BitVec 8) : Statement (.lw rd rs imm8) := by rw [Statement, encode, cutFields_imm]; rfl
theorem sw (ra rs : Reg) (imm8 : BitVec 8) : Statement (.sw ra rs imm8) := by rw [Statement, encode, cutFields_imm]; rfl
theorem bz (ra : Reg) (imm8 : BitVec 8) : Statement (.bz ra imm8) := by rw [Statement, encode, cutFields_imm]; rfl
theorem jr (ra : Reg) (ignored : BitVec 8) : Statement (.jr ra ignored) := by rw [Statement, encode, cutFields_imm]; rfl
theorem halt (ignored : BitVec 12) : Statement (.halt ignored) := (cutFields_ignored _ _).1
theorem unassignedE (ignored : BitVec 12) : Statement (.unassignedE ignored) := (cutFields_ignored _ _).1
theorem unassignedF (ignored : BitVec 12) : Statement (.unassignedF ignored) := (cutFields_ignored _ _).1

end Sys2Proof.Laws.OpcodeNibble
end

