-- ==== Sys2Proof/Tests/Slice0.lean ====
section
/-! SUPPORT. The model's own tests: the well-formedness smoke test, words written out from the encodings, vectors of
95_test_vectors.md (its ids in the names), and a witness for every statement that has hypotheses. -/

namespace Sys2Proof.Tests

open Sys2Proof.Machine

/-- One field of the next state, if there is a next state. -/
def nextField {α : Type} (o : Host.Outcome State Fault Refusal) (f : State → α) : Option α :=
  match o with
  | .next t => some (f t)
  | .fault _ => none
  | .refused _ => none

/-- The next state, if there is one. -/
def nextState (o : Host.Outcome State Fault Refusal) : Option State := nextField o id

/-- The reset state, running, with the given registers and memory and the program counter at `pc`. -/
def machine (pc : Word) (regs : List (Reg × Word)) (mem : Memory) : State :=
  (regs.foldl (fun (s : State) r => s.setX r.1 r.2) { State.reset with mem := mem, mode := .running }).setX Config.pcIdx pc

/-- The vectors' start state: the word at 0x0100, the program counter there (95_test_vectors, conventions). -/
def at100 (w : Word) (regs : List (Reg × Word)) : State := machine 0x0100 regs (Memory.storeBytes [] 0x100 [highByte w, lowByte w])

/-! ### Well-formedness: an ill-formed term for each check -/

theorem test_wf_refuses_lw_with_another_base : ¬ (Instr.lw 2 1 0x04).WellFormed := by decide
theorem test_wf_refuses_sw_with_another_base : ¬ (Instr.sw 1 14 0xFE).WellFormed := by decide
theorem test_wf_takes_lw_with_its_base : (Instr.lw 2 1 0x14).WellFormed := by decide

/-! ### Decoding: words written out bit by bit from 30_encoding sections 1 and 4 -/

theorem test_decode_register_form :
    decodeWord 0b0000000100100011 = .add 1 2 3 ∧ decodeWord 0b0001001000110100 = .sub 2 3 4 ∧
    decodeWord 0b0010000100100011 = .and 1 2 3 ∧ decodeWord 0b0011101111111111 = .or 11 15 15 ∧
    decodeWord 0b0100000100010001 = .xor 1 1 1 ∧ decodeWord 0b0101101001011010 = .sll 10 5 10 ∧
    decodeWord 0b0110000000000001 = .srl 0 0 1 := by decide
theorem test_decode_immediate_form :
    decodeWord 0b0111111111111000 = .addi 15 0xF8 ∧ decodeWord 0b1000000010000000 = .subi 0 0x80 ∧
    decodeWord 0b1011000111111110 = .bz 1 0xFE := by decide
theorem test_decode_memory_form :
    decodeWord 0b1001001011110000 = .lw 2 15 0xF0 ∧ decodeWord 0b1010000100001110 = .sw 1 0 0x0E := by decide
theorem test_decode_ignored_bits :
    decodeWord 0b1100010110101011 = .jr 5 0xAB ∧ decodeWord 0b1101111111111111 = .halt 0xFFF ∧
    decodeWord 0b1110000000000000 = .unassignedE 0 ∧ decodeWord 0b1111000100100011 = .unassignedF 0x123 := by decide
theorem test_encode_assembler_examples :
    encode (.addi 1 0xFF) = 0x71FF ∧ encode (.lw 2 0 0x04) = 0x9204 ∧ encode (.bz 1 0x02) = 0xB102 ∧
    encode (.jr 5 0) = 0xC500 := by decide
theorem test_decode_refuses_one_byte : decode [0xD0] = .error .truncated := by decide
theorem test_decodeTableWord : decodeTableWord 16 0x9210 = some (.lw 2 1 0x10) := by decide

/-! ### Instructions: vectors of 95_test_vectors sections 3 to 7, one step each -/

theorem test_add_A2_wraps_to_zero :
    nextField (step (at100 0x0123 [(2, 0xFFFF), (3, 1)])) (fun t => (t.x 1, t.fl, t.pc)) = some (0, 1, 0x0102) := by decide
theorem test_add_A8_flags_slot_as_destination :
    nextField (step (at100 0x0D12 [(1, 0x8000), (2, 4)])) (fun t => t.fl) = some 0x8006 := by decide
theorem test_sub_A11_borrows :
    nextField (step (at100 0x1123 [(2, 0), (3, 1)])) (fun t => (t.x 1, t.fl)) = some (0xFFFF, 2) := by decide
theorem test_and_A15 :
    nextField (step (at100 0x2123 [(2, 0xF0F0), (3, 0xFF00)])) (fun t => (t.x 1, t.fl)) = some (0xF000, 2) := by decide
theorem test_or_A18_reads_advanced_pc :
    nextField (step (at100 0x3BFF [])) (fun t => (t.x 11, t.fl)) = some (0x0102, 0) := by decide
theorem test_xor_A20 :
    nextField (step (at100 0x4123 [(2, 0xFFFF), (3, 0x00FF)])) (fun t => (t.x 1, t.fl)) = some (0xFF00, 2) := by decide
theorem test_sll_A23_by_fifteen :
    nextField (step (at100 0x5123 [(2, 1), (3, 15)])) (fun t => (t.x 1, t.fl)) = some (0x8000, 2) := by decide
theorem test_sll_A27_by_seventeen :
    nextField (step (at100 0x5123 [(2, 0xFFFF), (3, 17)])) (fun t => (t.x 1, t.fl)) = some (0, 1) := by decide
theorem test_srl_A31_by_fifteen :
    nextField (step (at100 0x6123 [(2, 0x8000), (3, 15)])) (fun t => (t.x 1, t.fl)) = some (1, 0) := by decide
theorem test_srl_A34_by_256 :
    nextField (step (at100 0x6123 [(2, 0x8000), (3, 0x100)])) (fun t => (t.x 1, t.fl)) = some (0, 1) := by decide
theorem test_addi_I1_negative :
    nextField (step (at100 0x71FB [(1, 0x10)])) (fun t => (t.x 1, t.fl)) = some (0x000B, 0) := by decide
theorem test_addi_I8_jumps_to_itself :
    nextField (step (at100 0x7FFE [])) (fun t => (t.pc, t.fl)) = some (0x0100, 0) := by decide
theorem test_subi_I13_adds_128 :
    nextField (step (at100 0x8180 [(1, 0)])) (fun t => (t.x 1, t.fl)) = some (0x0080, 0) := by decide
theorem test_lw_M5_loads_itself :
    nextField (step (at100 0x92FE [(13, 1)])) (fun t => (t.x 2, t.fl)) = some (0x92FE, 1) := by decide
theorem test_lw_M8_faults :
    nextField (step (at100 0x9200 [(0, 0x0FFF), (2, 0x7777)])) (fun t => (t.x 2, t.pc, t.mode, t.report)) =
      some (0x7777, 0x0102, .halted, some (.boundsData 0x0100 0x9200 0x0FFF)) := by decide
theorem test_sw_M14_odd_address :
    nextField (step (at100 0xA101 [(0, 0x40), (1, 0xA1B2)])) (fun t => (t.mem.get 0x40, t.mem.readWord 0x41)) =
      some (0, some 0xA1B2) := by decide
theorem test_sw_M16_faults :
    nextField (step (at100 0xA100 [(0, 0x0FFF), (1, 0xBEEF)])) (fun t => (t.mem.get 0xFFF, t.report)) =
      some (0, some (.boundsData 0x0100 0xA100 0x0FFF)) := by decide
theorem test_bz_C5_backwards :
    nextField (step (at100 0xB180 [(1, 0)])) (fun t => t.pc) = some 0x0082 := by decide
theorem test_bz_C11_tests_all_of_the_flags_slot :
    nextField (step (at100 0xBD04 [(13, 1)])) (fun t => t.pc) = some 0x0102 := by decide
theorem test_jr_C13_ignores_low_byte :
    nextField (step (at100 0xC5AB [(5, 0x0FFF)])) (fun t => t.pc) = some 0x0FFF := by decide
theorem test_halt_C17_no_report :
    nextField (step (at100 0xDFFF [])) (fun t => (t.mode, t.pc, t.report)) = some (.halted, 0x0102, none) := by decide
theorem test_unassigned_C18 :
    nextField (step (at100 0xE000 [])) (fun t => (t.mode, t.pc, t.report)) =
      some (.halted, 0x0102, some (.decode 0x0100 0xE000)) := by decide
theorem test_unassigned_C20 :
    nextField (step (at100 0xF123 [])) (fun t => t.report) = some (some (.decode 0x0100 0xF123)) := by decide
theorem test_fetch_F2_odd_pc :
    nextField (step (machine 0x0FFD [] [(0x0FFD, 0xD0)])) (fun t => (t.mode, t.pc)) = some (.halted, 0x0FFF) := by decide
theorem test_fetch_F3_faults :
    nextField (step (machine 0x0FFF [] [])) (fun t => (t.pc, t.report)) = some (0x0FFF, some (.boundsFetch 0x0FFF)) := by
  decide

/-! ### The control port: vectors of 95_test_vectors section 8 -/

/-- The reset state with the given requests to be granted. -/
def requested (rs : List Request) : State := { State.reset with schedule := rs }

theorem test_load_H7_up_to_the_end :
    nextField (step (requested [.loadProgram [0xD0, 0x00] 0x0FFE])) (fun t => (t.mem, t.pc, t.mode, t.answer)) =
      some ([(0x0FFE, 0xD0)], 0x0FFE, .paused, some .done) := by decide
theorem test_load_H8_rejected :
    nextField (step (requested [.loadProgram [0xD0, 0x00] 0x0FFF])) (fun t => (t.mem, t.pc, t.answer)) =
      some ([], 0, some .loadRejected) := by decide
theorem test_load_run_tick :
    nextField (Host.Core.run core 3 (requested [.loadProgram [0xD0, 0x00] 0x0200, .startRun])) (fun t => (t.mode, t.pc)) =
      some (.halted, 0x0202) := by decide
theorem test_fetch_word_runs_from_reset :
    nextField (step (State.reset.withFetchWord 16 0x7105)) (fun t => (t.x 1, t.pc)) = some (5, 2) := by decide

/-- Two requests that wait may be granted in either order (45_control R192). -/
theorem test_issue_at_either_place :
    ((requested [.tick]).issue .pause 0).schedule = [.pause, .tick] ∧
    ((requested [.tick]).issue .pause 7).schedule = [.tick, .pause] := by decide

/-! ### The assembler forms: examples of 30_encoding section 6 and 95_test_vectors section 9 -/

theorem test_asm_offset_not_reachable : asmLw 2 1 4 = none ∧ asmLw 2 1 16 = some (.lw 2 1 0x10) := by decide
theorem test_asm_boundaries :
    asmLw 2 8 (-128) = some (.lw 2 8 0x80) ∧ asmSw 1 15 (-1) = some (.sw 1 15 0xFF) ∧ asmAddi 0 128 = none := by decide
theorem test_asm_program_P1 :
    (do
      let a ← asmAddi 1 5; let b ← asmSubi 1 1; let c ← asmBzTo 1 0x0E 0x0A; let j ← expandPseudo (.jmp (-8))
      pure (programBytes ([.xor 1 1 1, a, .xor 2 2 2, .add 2 2 1, b, c] ++ j ++ [asmHalt]))) =
    some [0x41, 0x11, 0x71, 0x05, 0x42, 0x22, 0x02, 0x21, 0x81, 0x01, 0xB1, 0x02, 0x7F, 0xF8, 0xD0, 0x00] := by decide
theorem test_pseudo_words :
    expandPseudo .nop = some [.jr 15 0] ∧ expandPseudo (.mov 1 2) = some [.or 1 2 2] ∧
    expandPseudo (.li 4 (-1)) = some [.xor 4 4 4, .addi 4 0xFF] ∧ expandPseudo (.li 13 0) = none := by decide

/-! ### Witnesses: the hypotheses of each statement can be met -/

/-- A halted engine after a DecodeFault at 0x0100. -/
def faulted : State := (machine 0x0102 [] [(0x0100, 0xE0)]).raise (.decode 0x0100 0xE000)

theorem witness_ImmediateOverlapsRegisterFields :
    decodeWord 0x92F0 = .lw 2 15 0xF0 ∧ decodeWord 0xA10E = .sw 1 0 0x0E := by decide
theorem witness_DecodeOfEncodeIsIdentity :
    (Instr.lw 15 15 0xFF).WellFormed ∧ (Instr.sw 0 8 0x80).WellFormed ∧ (Instr.halt 0xFFF).WellFormed := by decide
theorem witness_OpcodeNibbleSelectsTheRow :
    0xE000 ≤ (0xE000#16).toNat ∧ decodeWord 0xDFFF = .halt 0xFFF ∧ decodeWord 0xE000 = .unassignedE 0 := by decide
theorem witness_RegisterPorts :
    (State.reset.setRegister 15 0xFFFF).toOption.isSome = true ∧
    State.reset.setRegister 16 0xFFFF = .error (.index 16) := by decide
theorem witness_NoStepReportsIndexFault :
    nextField (step { State.reset with report := some (.index 16) }) (fun t => t.report) = some (some (.index 16)) := by
  decide
theorem witness_ByteAccess : (4095#16).toNat ≤ 4095 ∧ 4095 < (4096#16).toNat := by decide
theorem witness_WordAccess : (4094#16).toNat ≤ 4094 ∧ 4094 < (4095#16).toNat := by decide
theorem witness_CanonicalMemories : Memory.wf [(0, 1), (4095, 0xFF)] := by decide
theorem witness_StoredWordIsTheNextOneFetched :
    ∃ t v, exec (.sw 1 0 0x0E) (machine 2 [(1, 0xD000)] []) = .next t ∧ t.report = none ∧
      ({ t with regs := (t.setX 15 0x0E).regs } : State).mem = t.mem ∧
      ({ t with regs := (t.setX 15 0x0E).regs } : State).pc = effectiveAddress (machine 2 [(1, 0xD000)] []) 0 0x0E ∧
      exec (decodeWord 0xD000) ({ t with regs := (t.setX 15 0x0E).regs } : State).advance = .next v :=
  ⟨(nextState (exec (.sw 1 0 0x0E) (machine 2 [(1, 0xD000)] []))).getD State.reset, _, rfl, rfl, rfl, by decide, rfl⟩
theorem witness_ZeroAndNegative :
    (Instr.sub 1 2 2).aluClass = true ∧ (nextField (exec (.sub 1 2 2) State.reset) (fun t => t.zFlag)) = some true := by
  decide
theorem witness_LoadAndStoreRange :
    (effectiveAddress (machine 0 [(0, 0x0FFE)] []) 0 0).toNat ≤ 4094 ∧
    4094 < (effectiveAddress (machine 0 [(0, 0x0FFE)] []) 0 1).toNat := by decide
theorem witness_BranchIfZero :
    (State.reset.x 1).toNat = 0 ∧ (State.reset.x 14).toNat ≠ 0 := by decide
theorem witness_StepOnUnassignedWord :
    (at100 0xE000 []).Steps ∧ (at100 0xE000 []).mem.readWord (at100 0xE000 []).pc = some 0xE000 ∧
    (at100 0xFFFF []).Steps ∧ (at100 0xFFFF []).mem.readWord (at100 0xFFFF []).pc = some 0xFFFF :=
  ⟨.inl ⟨rfl, rfl⟩, by decide, .inl ⟨rfl, rfl⟩, by decide⟩
theorem witness_JumpToProgramCounter :
    (at100 0xCFAB []).Steps ∧ (at100 0xCFAB []).mem.readWord (at100 0xCFAB []).pc = some 0xCFAB ∧
    (0xCFAB#16).toNat / 256 = 0xCF := ⟨.inl ⟨rfl, rfl⟩, by decide, by decide⟩
theorem witness_StepRunsTheDecodedInstruction :
    (requested [.stepOnce]).Steps ∧ (requested [.stepOnce]).pc.toNat ≤ 4094 ∧
    (requested [.stepOnce]).mem.readByte (requested [.stepOnce]).pc = some 0 ∧
    (requested [.stepOnce]).mem.readByte ((requested [.stepOnce]).pc + 1) = some 0 ∧
    decode [0, 0] = .ok (.add 0 0 0, []) ∧ (Instr.add 0 0 0).WellFormed ∧
    ∃ t, exec (.add 0 0 0) (requested [.stepOnce]).afterPop.advance = .next t :=
  ⟨.inr ⟨rfl, by decide⟩, by decide, by decide, by decide, by decide, trivial, _, rfl⟩
theorem witness_FetchOutOfRange :
    (machine 0x0FFF [] []).Steps ∧ 4094 < (machine 0x0FFF [] []).pc.toNat := ⟨.inl ⟨rfl, rfl⟩, by decide⟩
theorem witness_DataAccessOutOfRange :
    (at100 0x9201 [(0, 0x0FFE)]).Steps ∧
    (at100 0x9201 [(0, 0x0FFE)]).mem.readWord (at100 0x9201 [(0, 0x0FFE)]).pc = some 0x9201 ∧
    decodeWord 0x9201 = .lw 2 0 1 ∧ 4094 < (effectiveAddress (at100 0x9201 [(0, 0x0FFE)]).advance 0 1).toNat ∧
    (at100 0xA101 [(0, 0x0FFE)]).mem.readWord (at100 0xA101 [(0, 0x0FFE)]).pc = some 0xA101 ∧
    decodeWord 0xA101 = .sw 1 0 1 ∧ 4094 < (effectiveAddress (at100 0xA101 [(0, 0x0FFE)]).advance 0 1).toNat :=
  ⟨.inl ⟨rfl, rfl⟩, by decide, by decide, by decide, by decide, by decide, by decide⟩
theorem witness_StepKeepsTheMode :
    (at100 0xDFFF []).report = none ∧ (decodeWord 0xDFFF).isHalt = true ∧
    (nextField (step (at100 0xE000 [])) (fun t => t.report.isSome)) = some true ∧
    (nextField (step (at100 0x0000 [])) (fun t => t.report)) = some none ∧ (decodeWord 0x0000).isHalt = false := by decide
theorem witness_StepGoesOn : (at100 0x0123 []).Steps ∧ ∃ t, step (at100 0x0123 []) = .next t :=
  ⟨.inl ⟨rfl, rfl⟩, _, rfl⟩
theorem witness_ExecGoesOn :
    ∃ t, exec (.sw 1 0 0) (machine 0 [(0, 0x0FFE), (1, 0xBEEF)] []) = .next t ∧ t.report = none :=
  ⟨(nextState (exec (.sw 1 0 0) (machine 0 [(0, 0x0FFE), (1, 0xBEEF)] []))).getD State.reset, rfl, rfl⟩
theorem witness_FaultingInstruction :
    ∃ t, exec (.unassignedF 0) State.reset = .next t ∧ State.reset.report = none ∧ t.report.isSome = true :=
  ⟨_, rfl, rfl, rfl⟩
theorem witness_EngineInvariant : EngineInv faulted ∧ ∃ t, step faulted = .next t := by
  have hw : faulted.mem.wf := by decide
  have hf : ∀ f, faulted.report = some f → faulted.mode = .halted ∧ f.LegalAt faulted.pc := by
    intro f h
    cases h
    exact ⟨rfl, by decide, by decide⟩
  have hb : ∀ sn, faulted.broadcast = some sn → sn.Consistent := by
    intro _ h
    cases h
  have ha : ∀ sn, faulted.answer = some (.snapshot sn) → sn.Consistent := by
    intro _ h
    cases h
  exact ⟨⟨hw, hf, hb, ha⟩, faulted, rfl⟩
theorem witness_Tick :
    (requested []).nextRequest = .tick ∧ (requested []).mode ≠ .running ∧ (at100 0 []).nextRequest = .tick ∧
    (at100 0 []).mode = .running ∧ faulted.nextRequest = .tick ∧ faulted.mode = .halted := by decide
theorem witness_HaltedTicks : faulted.mode = .halted ∧ faulted.schedule = [] := ⟨rfl, rfl⟩
theorem witness_HaltedIsTerminal :
    ({ faulted with schedule := [.startRun, .pause, .stepOnce, .tick, .getSnapshot, .loadProgram [0, 0] 0x0FFF] }
      : State).mode = .halted ∧
    ∀ r ∈ [Request.startRun, .pause, .stepOnce, .tick, .getSnapshot, .loadProgram [0, 0] 0x0FFF], r.KeepsHalted := by
  refine ⟨rfl, fun r h => ?_⟩
  simp only [List.mem_cons, List.not_mem_nil, or_false] at h
  rcases h with rfl | rfl | rfl | rfl | rfl | rfl <;> first | trivial | (show Config.cap < _; decide)
theorem witness_ModeCommands :
    (requested [.startRun]).nextRequest = .startRun ∧ (requested [.startRun]).mode = .paused ∧
    (requested [.pause]).nextRequest = .pause ∧
    ({ at100 0 [] with schedule := [.startRun] } : State).nextRequest = .startRun ∧
    ({ at100 0 [] with schedule := [.pause] } : State).mode = .running ∧
    ({ faulted with schedule := [.startRun] } : State).nextRequest = .startRun ∧ faulted.mode = .halted ∧
    ({ faulted with schedule := [.stepOnce] } : State).nextRequest = .stepOnce := by decide
theorem witness_LoadAndReset :
    (requested [.loadProgram [] 0x1000]).nextRequest = .loadProgram [] 0x1000 ∧
    (0x1000#16).toNat + ([] : List Byte).length ≤ 4096 ∧
    (requested [.loadProgram [1, 2] 0x0FFE]).nextRequest = .loadProgram [1, 2] 0x0FFE ∧
    (0x0FFE#16).toNat + [1#8, 2#8].length ≤ 4096 ∧ 4096 < (0x1001#16).toNat + ([] : List Byte).length ∧
    (requested [.reset]).nextRequest = .reset ∧ (requested [.getSnapshot]).nextRequest = .getSnapshot := by decide
theorem witness_FaultReports :
    (at100 0xE000 []).report = none ∧
    nextField (step (at100 0xE000 [])) (fun t => t.report) = some (some (.decode 0x0100 0xE000)) ∧
    nextField (step (machine 0xFFFF [] [])) (fun t => t.report) = some (some (.boundsFetch 0xFFFF)) ∧
    nextField (step (at100 0xA101 [(0, 0x0FFE)])) (fun t => t.report) =
      some (some (.boundsData 0x0100 0xA101 0x0FFF)) := by decide
theorem witness_LoadedProgram :
    (requested [.loadProgram (programBytes [asmHalt]) 0x0FFE]).nextRequest =
      .loadProgram (programBytes [.halt 0]) 0x0FFE ∧ (0x0FFE#16).toNat + 2 * [Instr.halt 0].length ≤ 4096 := by decide
theorem witness_ReachableDisplacements : asmLw 2 15 (-16) = some (.lw 2 15 0xF0) := by decide
theorem witness_StepOnceRequests :
    (requested [.stepOnce, .stepOnce]).mode ≠ .halted ∧
    (requested [.stepOnce, .stepOnce]).schedule = List.replicate 2 .stepOnce ++ [] ∧
    ∀ k u, k < 2 → Host.Core.run core k (requested [.stepOnce, .stepOnce]) = .next u → u.StepsSequentially := by
  refine ⟨by decide, rfl, fun k u hk h => ?_⟩
  obtain rfl | rfl : k = 0 ∨ k = 1 := by omega
  all_goals
    cases h
    refine ⟨0, by decide, fun hj => absurd hj.1 (by decide), fun t ht => ?_⟩
    cases ht
    decide

end Sys2Proof.Tests
end

section
/-! The register ports (10_state R21, R25): what each answers on either side of the bound, what the write port keeps, and the
round trip that follows. -/

namespace Sys2Proof.Machine

variable (s : State)

theorem getRegister_of_lt {idx : Nat} (h : idx < 16) : s.getRegister idx = .ok (s.x (BitVec.ofNat 4 idx)) := if_pos h

theorem getRegister_of_le {idx : Nat} (h : 16 ≤ idx) : s.getRegister idx = .error (.index idx) := if_neg (Nat.not_lt.mpr h)

theorem setRegister_of_lt {idx : Nat} (v : Word) (h : idx < 16) :
    s.setRegister idx v = .ok (s.setX (BitVec.ofNat 4 idx) v) := if_pos h

/-- Distinct indices below 16 name distinct slots, which the ports' truncation to 4 bits needs. -/
theorem ofNat_reg_ne {q r : Nat} (hq : q < 16) (hr : r < 16) (h : q ≠ r) : (BitVec.ofNat 4 q : Reg) ≠ BitVec.ofNat 4 r := by
  intro e
  have hmod : q % 16 = r % 16 := congrArg BitVec.toNat e
  omega

theorem getRegister_setX_same {r : Nat} (v : Word) (hr : r < 16) :
    (s.setX (BitVec.ofNat 4 r) v).getRegister r = .ok v := by
  rw [getRegister_of_lt _ hr, x_setX, if_pos rfl]

/-- The other index need not name a slot: from 16 on the read port answers IndexFault before and after. -/
theorem getRegister_setX_of_ne {q r : Nat} (v : Word) (hr : r < 16) (h : q ≠ r) :
    (s.setX (BitVec.ofNat 4 r) v).getRegister q = s.getRegister q := by
  rcases Nat.lt_or_ge q 16 with hq | hq
  · rw [getRegister_of_lt _ hq, getRegister_of_lt _ hq, x_setX, if_neg (ofNat_reg_ne hq hr h)]
  · rw [getRegister_of_le _ hq, getRegister_of_le _ hq]

theorem sameMemory_setX (i : Reg) (v : Word) : SameMemory s (s.setX i v) := fun _ => rfl

theorem sameControl_setX (i : Reg) (v : Word) : SameControl s (s.setX i v) := ⟨rfl, rfl, rfl, rfl, rfl⟩

end Sys2Proof.Machine

namespace Sys2Proof.Proofs

open Sys2Proof.Machine

/-- Settles O9: below 16 the write port is a slot write, so the round trip and the frame are those of `setX`. -/
theorem registerRoundTrip : Obligations.RegisterRoundTrip := fun s r v hr =>
  ⟨s.setX (BitVec.ofNat 4 r) v, setRegister_of_lt s v hr, getRegister_setX_same s v hr,
    fun _ hq => getRegister_setX_of_ne s v hr hq, sameMemory_setX s _ v, sameControl_setX s _ v⟩

end Sys2Proof.Proofs
end

section
/-! Byte and word accesses as the ports show them (20_memory R53 to R58): what each read answers after each write, for every
address, stated over `readByte` so that the address bound is dealt with once. -/

namespace Sys2Proof.Machine.Memory

theorem writeByte_eq (m : Memory) {a : Word} (h : a.toNat ≤ 4095) (v : Byte) : m.writeByte a v = some (m.set a.toNat v) :=
  if_pos h

theorem writeByte_none (m : Memory) {a : Word} (h : 4095 < a.toNat) (v : Byte) : m.writeByte a v = none :=
  if_neg (Nat.not_le.mpr h)

/-- The byte port sees no more of a memory than the byte at the address. -/
theorem readByte_congr {m m' : Memory} {b : Word} (h : m'.get b.toNat = m.get b.toNat) : m'.readByte b = m.readByte b := by
  rw [readByte, readByte, h]

/-- The second byte of a word inside the memory stands at the next number: the address does not wrap. -/
theorem succ_toNat {a : Word} (h : a.toNat ≤ 4094) : (a + 1).toNat = a.toNat + 1 :=
  BitVec.toNat_add_of_lt (y := 1) (show a.toNat + 1 < 65536 by omega)

/-- Everything a byte read sees of a byte store that went through (20_memory R56). -/
theorem readByte_of_writeByte {m m' : Memory} {a : Word} {v : Byte} (h : m.writeByte a v = some m') (b : Word) :
    m'.readByte b = if b = a then some v else m.readByte b := by
  rcases Nat.lt_or_ge 4095 a.toNat with ha | ha
  · rw [writeByte_none m ha] at h
    cases h
  · rw [writeByte_eq m ha] at h
    cases h
    split
    next hb => rw [hb, readByte_eq _ ha, get_set, if_pos rfl]
    next hb =>
      have hne : b.toNat ≠ a.toNat := fun e => hb (BitVec.eq_of_toNat_eq e)
      exact readByte_congr (by rw [get_set, if_neg hne])

/-- Everything a byte read sees of a word store that went through (20_memory R58). -/
theorem readByte_of_writeWord {m m' : Memory} {a v : Word} (h : m.writeWord a v = some m') (b : Word) :
    m'.readByte b = if b = a + 1 then some (lowByte v) else if b = a then some (highByte v) else m.readByte b := by
  obtain ⟨ha, hget⟩ := get_of_writeWord h b.toNat
  have hsucc := succ_toNat ha
  by_cases hlo : b = a + 1
  · have hb : b.toNat = a.toNat + 1 := hlo ▸ hsucc
    rw [if_pos hlo, readByte_eq _ (by omega), hget, if_pos hb]
  · have hnlo : b.toNat ≠ a.toNat + 1 := fun e => hlo (BitVec.eq_of_toNat_eq (e.trans hsucc.symm))
    rw [if_neg hnlo] at hget
    rw [if_neg hlo]
    by_cases hhi : b = a
    · rw [if_pos hhi, readByte_eq _ (by rw [hhi]; omega), hget, if_pos (congrArg BitVec.toNat hhi)]
    · have hnhi : b.toNat ≠ a.toNat := fun e => hhi (BitVec.eq_of_toNat_eq e)
      rw [if_neg hhi]
      exact readByte_congr (by rw [hget, if_neg hnhi])

end Sys2Proof.Machine.Memory

namespace Sys2Proof.Proofs

open Sys2Proof.Machine

/-- Settles O13: below the bound `a + 1` does not wrap, so both bytes are inside the memory, and the word is their big-endian
value. -/
theorem wordReadIsTwoBytesBigEndian : Obligations.WordReadIsTwoBytesBigEndian := by
  refine fun m a => ⟨Memory.readWord_none m, fun ha => ?_⟩
  have hsucc := Memory.succ_toNat ha
  refine ⟨m.get a.toNat, m.get (a.toNat + 1), _, Memory.readByte_eq m (by omega), ?_, Memory.readWord_eq m ha,
    wordOfBytes_toNat _ _⟩
  rw [Memory.readByte_eq m (by omega), hsucc]

/-- Settles O14: what each address reads after the store, at `a` (which is not `a + 1`), at `a + 1` and elsewhere. -/
theorem wordStoreWritesBothBytesOrNone : Obligations.WordStoreWritesBothBytesOrNone := by
  refine fun m a v => ⟨fun ha => Memory.writeWord_none m ha v, fun ha => ?_⟩
  have hstore := Memory.writeWord_eq m ha v
  have hread := Memory.readByte_of_writeWord hstore
  have hne : a ≠ a + 1 := by bv_omega
  refine ⟨_, highByte v, lowByte v, hstore, ?_, ?_, highByte_toNat v, lowByte_toNat v, fun b hhi hlo => ?_⟩
  · rw [hread, if_neg hne, if_pos rfl]
  · rw [hread, if_pos rfl]
  · rw [hread, if_neg hlo, if_neg hhi]

/-- Settles O12: both ports have the one bound, and a read after a store is told by `readByte_of_writeByte`. -/
theorem byteAccessReadsAndWrites : Obligations.ByteAccessReadsAndWrites := by
  refine fun m a v => ⟨fun ha => ⟨Memory.readByte_none m ha, Memory.writeByte_none m ha v⟩, fun ha => ?_⟩
  have hstore := Memory.writeByte_eq m ha v
  have hread := Memory.readByte_of_writeByte hstore
  refine ⟨Memory.readByte_eq m ha, _, hstore, ?_, fun b hb => ?_⟩
  · rw [hread, if_pos rfl]
  · rw [hread, if_neg hb]

end Sys2Proof.Proofs
end

section
/-! The five fields of a word as numbers (30_encoding R82 to R86). -/

namespace Sys2Proof.Proofs

/-- Settles O1: each field is the quotient and remainder its bit range says, and eight bits read as signed lie in
`[-2 ^ 7, 2 ^ 7)`. -/
theorem fieldsAreTheBitsOfTheWord : Obligations.FieldsAreTheBitsOfTheWord := by
  intro w
  have hlow : -128 ≤ (cutFields w).imm8.toInt := BitVec.le_toInt _
  have hhigh : (cutFields w).imm8.toInt < 128 := BitVec.toInt_lt
  exact ⟨cutFields_opcode_toNat w, cutFields_first_toNat w, cutFields_rs_toNat w, cutFields_rt_toNat w,
    cutFields_imm8_toNat w, hlow, Int.le_of_lt_add_one hhigh⟩

end Sys2Proof.Proofs
end

section
/-! A program's bytes (30_encoding R102) and what an accepted load of them leaves in memory (45_control R200). -/

namespace Sys2Proof.Machine

@[simp] theorem programBytes_cons (i : Instr) (is : List Instr) :
    programBytes (i :: is) = highByte (encode i) :: lowByte (encode i) :: programBytes is := rfl

theorem programBytes_length (is : List Instr) : (programBytes is).length = 2 * is.length := by
  induction is with
  | nil => rfl
  | cons i is ih =>
    simp only [programBytes_cons, List.length_cons, ih]
    omega

/-- Bytes `2 * k` and `2 * k + 1` are the two bytes of instruction `k`, the high one first. -/
theorem programBytes_getElem? {is : List Instr} {k : Nat} (h : k < is.length) :
    (programBytes is)[2 * k]? = some (highByte (encode is[k])) ∧
      (programBytes is)[2 * k + 1]? = some (lowByte (encode is[k])) := by
  induction is generalizing k with
  | nil => cases h
  | cons i is ih =>
    cases k with
    | zero => exact ⟨rfl, rfl⟩
    | succ k => exact ih (Nat.lt_of_succ_lt_succ h)

/-- A word read inside a copied byte sequence is two neighbouring bytes of it, big-endian (20_memory R53): the sequence ends
inside the memory, so the address does not wrap. -/
theorem Memory.readWord_storeBytes (m : Memory) {base : Word} {bs : List Byte} {j : Nat} {hi lo : Byte}
    (hfit : base.toNat + bs.length ≤ 4096) (hhi : bs[j]? = some hi) (hlo : bs[j + 1]? = some lo) :
    (m.storeBytes base.toNat bs).readWord (base + BitVec.ofNat 16 j) = some (wordOfBytes hi lo) := by
  obtain ⟨hj, rfl⟩ := List.getElem?_eq_some_iff.mp hhi
  obtain ⟨hj', rfl⟩ := List.getElem?_eq_some_iff.mp hlo
  have haddr : (base + BitVec.ofNat 16 j).toNat = base.toNat + j := by
    rw [BitVec.toNat_add, BitVec.toNat_ofNat]
    omega
  rw [readWord_eq _ (by omega), haddr, get_storeBytes_inside _ hj, Nat.add_assoc, get_storeBytes_inside _ hj']

/-- The state after a granted load that fits (45_control R200). -/
theorem step_loadProgram_accepted {s : State} {bytes : List Byte} {base : Word}
    (hreq : s.nextRequest = .loadProgram bytes base) (hfit : base.toNat + bytes.length ≤ 4096) :
    step s = .next (({ s.afterPop with mem := s.mem.storeBytes base.toNat bytes, mode := .paused, report := none }.setX
      Config.pcIdx base).answerWith .done) := by
  rw [step, hreq, grant, grantLoad_accepted hfit, afterPop_mem]

end Sys2Proof.Machine

namespace Sys2Proof.Proofs

open Sys2Proof.Machine

/-- Settles O58: instruction `k` lies at byte `2 * k` of the program, and a load that fits copies the program to `base` and
sets the program counter there. -/
theorem loadedProgramIsItsWordsInOrder : Obligations.LoadedProgramIsItsWordsInOrder := by
  refine fun is s base => ⟨programBytes_length is, fun k hk => ?_, fun hreq hfit => ?_⟩
  · obtain ⟨hhi, hlo⟩ := programBytes_getElem? hk
    refine ⟨_, _, hhi, hlo, ?_⟩
    rw [← wordOfBytes_toNat, wordOfBytes_high_low]
  · rw [← programBytes_length] at hfit
    refine ⟨_, step_loadProgram_accepted hreq hfit, ?_, fun k hk => ?_⟩
    · rw [answerWith_pc, State.pc, x_setX, if_pos rfl]
    · obtain ⟨hhi, hlo⟩ := programBytes_getElem? hk
      rw [answerWith_mem, setX_mem, Memory.readWord_storeBytes _ hfit hhi hlo, wordOfBytes_high_low]

end Sys2Proof.Proofs
end

section
/-! One `Step()` of a granted request (40_step_cycle R110 to R121): what any instruction does to the mode and the report, and
the model's step as the engine's. -/

namespace Sys2Proof.Machine

variable {s t : State} {i : Instr}

/-- The faults an instruction raises while it executes (60_exceptions R222, R224), each with the condition it is raised under. -/
inductive Raises (s : State) : Instr → Fault → Prop
  | unassignedE (ignored : BitVec 12) :
      Raises s (.unassignedE ignored) (.decode s.fetchedFrom (encode (.unassignedE ignored)))
  | unassignedF (ignored : BitVec 12) :
      Raises s (.unassignedF ignored) (.decode s.fetchedFrom (encode (.unassignedF ignored)))
  | lw {rd rs : Reg} {imm8 : BitVec 8} (h : 4094 < (effectiveAddress s rs imm8).toNat) :
      Raises s (.lw rd rs imm8) (.boundsData s.fetchedFrom (encode (.lw rd rs imm8)) (effectiveAddress s rs imm8))
  | sw {ra rs : Reg} {imm8 : BitVec 8} (h : 4094 < (effectiveAddress s rs imm8).toNat) :
      Raises s (.sw ra rs imm8) (.boundsData s.fetchedFrom (encode (.sw ra rs imm8)) (effectiveAddress s rs imm8))

/-- The fetch check alone reports a fetch fault. -/
theorem Raises.ne_boundsFetch {f : Fault} (h : Raises s i f) (a : Word) : f ≠ .boundsFetch a := by
  cases h <;> exact Fault.noConfusion

/-- An instruction that completes touches registers and memory only; HALT sets the mode; and a fault raised is all the
instruction does. -/
theorem exec_cases (h : exec i s = .next t) :
    (i.isHalt = false ∧ SameControl s t) ∨ (i.isHalt = true ∧ t = { s with mode := .halted }) ∨
      ∃ f, Raises s i f ∧ t = s.raise f := by
  cases i with
  | add | sub | and | or | xor | sll | srl | addi | subi | jr =>
    cases h
    exact .inl ⟨rfl, rfl, rfl, rfl, rfl, rfl⟩
  | halt =>
    cases h
    exact .inr (.inl ⟨rfl, rfl⟩)
  | unassignedE ignored =>
    cases h
    exact .inr (.inr ⟨_, .unassignedE ignored, rfl⟩)
  | unassignedF ignored =>
    cases h
    exact .inr (.inr ⟨_, .unassignedF ignored, rfl⟩)
  | bz ra imm8 =>
    by_cases hz : s.x ra = 0
    · cases (execBz_taken hz).symm.trans h
      exact .inl ⟨rfl, sameControl_setX s _ _⟩
    · cases (execBz_notTaken hz).symm.trans h
      exact .inl ⟨rfl, rfl, rfl, rfl, rfl, rfl⟩
  | lw rd rs imm8 =>
    rcases Nat.lt_or_ge 4094 (effectiveAddress s rs imm8).toNat with ha | ha
    · cases (execLw_outOfRange ha).symm.trans h
      exact .inr (.inr ⟨_, .lw ha, rfl⟩)
    · cases (execLw_inRange ha).symm.trans h
      exact .inl ⟨rfl, sameControl_setX s _ _⟩
  | sw ra rs imm8 =>
    rcases Nat.lt_or_ge 4094 (effectiveAddress s rs imm8).toNat with ha | ha
    · cases (execSw_outOfRange ha).symm.trans h
      exact .inr (.inr ⟨_, .sw ha, rfl⟩)
    · cases (execSw_inRange ha).symm.trans h
      exact .inl ⟨rfl, rfl, rfl, rfl, rfl, rfl⟩

/-- No instruction touches the host's side. -/
theorem exec_sameHostSide (h : exec i s = .next t) : SameHostSide s t := by
  rcases exec_cases h with ⟨_, _, _, hhost⟩ | ⟨_, rfl⟩ | ⟨_, _, rfl⟩
  · exact hhost
  · exact ⟨rfl, rfl, rfl⟩
  · exact ⟨rfl, rfl, rfl⟩

/-- The engine answers nobody: answering is the control port's part of a grant. -/
theorem engineStep_answer (h : engineStep s = .next t) : t.answer = s.answer := by
  rcases engineStep_cases h with ⟨_, rfl⟩ | ⟨_, _, _, hexec, rfl⟩
  · rfl
  · exact (exec_sameHostSide hexec).1

theorem onNext_eq_self {o : Host.Outcome State Fault Refusal} {f : State → State}
    (h : ∀ u, o = .next u → f u = u) : onNext o f = o := by
  cases o with
  | next u => exact congrArg _ (h u rfl)
  | fault | refused => rfl

/-- A grant that performs a `Step()` is the engine's step, with the request off the schedule and the host answered. -/
theorem step_of_steps (h : s.Steps) :
    step s = onNext (engineStep s.afterPop) fun u => { u with answer := s.answerAfterStep } := by
  rcases h with ⟨hreq, hmode⟩ | ⟨hreq, hmode⟩
  · have hanswer : s.answerAfterStep = s.answer := if_neg (by rw [hreq]; decide)
    rw [step, hreq, grant, grantTick_running (s := s.afterPop) hmode, hanswer]
    refine (onNext_eq_self fun u hu => ?_).symm
    rw [← afterPop_answer, ← engineStep_answer hu]
  · have hanswer : s.answerAfterStep = some .done := if_pos hreq
    rw [step, hreq, grant, grantStepOnce_runs (s := s.afterPop) hmode, hanswer]
    rfl

/-- Everything a granted `Step()` can do: the fetch fault, or the decoded instruction in the advanced state. -/
theorem step_cases (h : s.Steps) (ht : step s = .next t) :
    (4094 < s.pc.toNat ∧
      t = { (s.afterPop.raise (.boundsFetch s.pc)).handOver with answer := s.answerAfterStep }) ∨
    ∃ w u, s.mem.readWord s.pc = some w ∧ exec (decodeWord w) s.afterPop.advance = .next u ∧
      t = { u.handOver with answer := s.answerAfterStep } := by
  rw [step_of_steps h] at ht
  obtain ⟨v, hv, rfl⟩ := onNext_eq_next.mp ht
  rcases engineStep_cases hv with ⟨hpc, rfl⟩ | ⟨w, u, hw, hu, rfl⟩
  · exact .inl ⟨hpc, rfl⟩
  · exact .inr ⟨w, u, hw, hu, rfl⟩

end Sys2Proof.Machine

namespace Sys2Proof.Proofs

open Sys2Proof.Machine

/-- Settles O38: above 4094 the step is the raise of the fetch fault; and no instruction sends a fetch fault's report. -/
theorem fetchOutOfRangeHalts : Obligations.FetchOutOfRangeHalts := by
  refine ⟨fun s hs hpc => ?_, fun s t a hs hnone ht hreport => ?_⟩
  · have hstep := step_of_steps hs
    rw [engineStep_outOfRange (s := s.afterPop) hpc] at hstep
    exact ⟨_, hstep, rfl, rfl, fun _ => rfl, SameMemory.of_eq rfl⟩
  · rcases step_cases hs ht with ⟨hpc, _⟩ | ⟨w, u, _, hexec, rfl⟩
    · exact hpc
    · have hu : u.report = some (.boundsFetch a) := hreport
      rcases exec_cases hexec with ⟨_, _, hkept, _⟩ | ⟨_, rfl⟩ | ⟨f, hf, rfl⟩
      · cases hu.symm.trans (hkept.trans hnone)
      · cases hu.symm.trans hnone
      · exact absurd (Option.some.inj hu) (hf.ne_boundsFetch a)

/-- Settles O40: a raise and HALT leave the mode Halted; an instruction that completes and is no HALT leaves mode and report
as they were. -/
theorem stepKeepsTheModeUnlessItHalts : Obligations.StepKeepsTheModeUnlessItHalts := by
  intro s t hs hnone ht
  rcases step_cases hs ht with ⟨_, rfl⟩ | ⟨w, u, hw, hexec, rfl⟩
  · exact ⟨fun _ => rfl, fun hreport => nomatch hreport⟩
  · rcases exec_cases hexec with ⟨hno, hmode, hreport, _⟩ | ⟨hhalt, rfl⟩ | ⟨f, _, rfl⟩
    · refine ⟨fun hstop => ?_, fun _ _ => hmode⟩
      rcases hstop with hsent | ⟨w', hw', hhalt⟩
      · have hempty : u.report = none := hreport.trans hnone
        cases (congrArg Option.isSome hempty).symm.trans hsent
      · cases hw.symm.trans hw'
        cases hno.symm.trans hhalt
    · exact ⟨fun _ => rfl, fun _ hno => nomatch hhalt.symm.trans (hno w hw)⟩
    · exact ⟨fun _ => rfl, fun hreport => nomatch hreport⟩

end Sys2Proof.Proofs
end

section
/-! The register-register ALU instructions up to XOR (41_alu_register R130 to R135): what a word of the three-register form
decodes to, what each instruction answers, and the bits of the three bitwise results. Each of the five statements is then its
instruction's equation, what `aluWrite` does, and its result as a number or bit by bit. -/

namespace Sys2Proof

/-- The opcode map on a word of the three-register form (30_encoding R89): the three indices reach it as they stand. -/
theorem decodeWord_three (op rd rs rt : BitVec 4) :
    decodeWord (op ++ rd ++ rs ++ rt) = instrOfFields ⟨op, rd, rs, rt, rs ++ rt⟩ :=
  congrArg instrOfFields (cutFields_three op rd rs rt)

end Sys2Proof

namespace Sys2Proof.Machine

section
variable (rd rs rt : Reg) (s : State)

theorem exec_add : exec (.add rd rs rt) s = .next (s.aluWrite rd (aluAdd (s.x rs) (s.x rt))) := rfl

theorem exec_sub : exec (.sub rd rs rt) s = .next (s.aluWrite rd (aluSub (s.x rs) (s.x rt))) := rfl

theorem exec_and : exec (.and rd rs rt) s = .next (s.aluWrite rd (aluAnd (s.x rs) (s.x rt))) := rfl

theorem exec_or : exec (.or rd rs rt) s = .next (s.aluWrite rd (aluOr (s.x rs) (s.x rt))) := rfl

theorem exec_xor : exec (.xor rd rs rt) s = .next (s.aluWrite rd (aluXor (s.x rs) (s.x rt))) := rfl

end

theorem aluAnd_getLsbD (a b : Word) (k : Nat) : (aluAnd a b).getLsbD k = (a.getLsbD k && b.getLsbD k) :=
  BitVec.getLsbD_and

theorem aluOr_getLsbD (a b : Word) (k : Nat) : (aluOr a b).getLsbD k = (a.getLsbD k || b.getLsbD k) :=
  BitVec.getLsbD_or

theorem aluXor_getLsbD (a b : Word) (k : Nat) : (aluXor a b).getLsbD k = (a.getLsbD k ^^ b.getLsbD k) :=
  BitVec.getLsbD_xor

end Sys2Proof.Machine

namespace Sys2Proof.Proofs

open Sys2Proof.Machine

/-- Settles O17: ADD is the ALU write of `aluAdd` of its sources, which is their sum modulo 65536. -/
theorem addWritesSumAndFlags : Obligations.AddWritesSumAndFlags := by
  refine fun rd rs rt s => ⟨decodeWord_three 0x0 rd rs rt, aluAdd (s.x rs) (s.x rt), _, exec_add rd rs rt s, ?_, ?_⟩
  · exact aluWrite_effect s rd _
  · exact aluAdd_toNat _ _

/-- Settles O18: SUB is the ALU write of `aluSub` of its sources, the first the minuend. -/
theorem subWritesDifferenceAndFlags : Obligations.SubWritesDifferenceAndFlags := by
  refine fun rd rs rt s => ⟨decodeWord_three 0x1 rd rs rt, aluSub (s.x rs) (s.x rt), _, exec_sub rd rs rt s, ?_, ?_⟩
  · exact aluWrite_effect s rd _
  · exact aluSub_toNat _ _

/-- Settles O19: AND is the ALU write of `aluAnd` of its sources, told bit by bit. -/
theorem andWritesConjunctionAndFlags : Obligations.AndWritesConjunctionAndFlags := by
  refine fun rd rs rt s => ⟨decodeWord_three 0x2 rd rs rt, aluAnd (s.x rs) (s.x rt), _, exec_and rd rs rt s, ?_, ?_⟩
  · exact aluWrite_effect s rd _
  · exact fun k _ => aluAnd_getLsbD _ _ k

/-- Settles O20: OR is the ALU write of `aluOr` of its sources, told bit by bit. -/
theorem orWritesDisjunctionAndFlags : Obligations.OrWritesDisjunctionAndFlags := by
  refine fun rd rs rt s => ⟨decodeWord_three 0x3 rd rs rt, aluOr (s.x rs) (s.x rt), _, exec_or rd rs rt s, ?_, ?_⟩
  · exact aluWrite_effect s rd _
  · exact fun k _ => aluOr_getLsbD _ _ k

/-- Settles O21: XOR is the ALU write of `aluXor` of its sources, told bit by bit. -/
theorem xorWritesExclusiveOrAndFlags : Obligations.XorWritesExclusiveOrAndFlags := by
  refine fun rd rs rt s => ⟨decodeWord_three 0x4 rd rs rt, aluXor (s.x rs) (s.x rt), _, exec_xor rd rs rt s, ?_, ?_⟩
  · exact aluWrite_effect s rd _
  · exact fun k _ => aluXor_getLsbD _ _ k

end Sys2Proof.Proofs
end

section
/-! The register-immediate ALU instructions (42_alu_immediate R150 to R152). The sign-extended immediate is the signed one
modulo 65536, so the unsigned sum and difference of the ALU are the signed ones modulo 65536. -/

namespace Sys2Proof

/-- The opcode map on a word of the immediate form (30_encoding R89): register index and immediate reach it as they stand. -/
theorem decodeWord_imm (op rd : BitVec 4) (imm8 : BitVec 8) :
    decodeWord (op ++ rd ++ imm8) = instrOfFields ⟨op, rd, imm8.extractLsb' 4 4, imm8.extractLsb' 0 4, imm8⟩ :=
  congrArg instrOfFields (cutFields_imm op rd imm8)

end Sys2Proof

namespace Sys2Proof.Machine

theorem exec_addi (rd : Reg) (imm8 : BitVec 8) (s : State) :
    exec (.addi rd imm8) s = .next (s.aluWrite rd (aluAdd (s.x rd) (sext16 imm8))) := rfl

theorem exec_subi (rd : Reg) (imm8 : BitVec 8) (s : State) :
    exec (.subi rd imm8) s = .next (s.aluWrite rd (aluSub (s.x rd) (sext16 imm8))) := rfl

/-- Sign extension keeps the signed value modulo 65536 (30_encoding R88). -/
theorem sext16_toNat_eq_toInt_emod (v : BitVec 8) : ((sext16 v).toNat : Int) = v.toInt % 65536 := by
  rw [sext16, BitVec.signExtend, BitVec.toNat_ofInt]
  exact Int.toNat_of_nonneg (Int.emod_nonneg _ (by decide))

theorem aluAdd_sext16_toNat (a : Word) (v : BitVec 8) :
    ((aluAdd a (sext16 v)).toNat : Int) = (a.toNat + v.toInt) % 65536 := by
  have himm := sext16_toNat_eq_toInt_emod v
  rw [aluAdd_toNat]
  omega

theorem aluSub_sext16_toNat (a : Word) (v : BitVec 8) :
    ((aluSub a (sext16 v)).toNat : Int) = (a.toNat - v.toInt) % 65536 := by
  have himm := sext16_toNat_eq_toInt_emod v
  have ha := a.isLt
  rw [aluSub_toNat]
  split <;> omega

end Sys2Proof.Machine

namespace Sys2Proof.Proofs

open Sys2Proof.Machine

/-- Settles O25: ADDI is the ALU write of `aluAdd` of its register and the sign-extended immediate. -/
theorem addiAddsSignedImmediate : Obligations.AddiAddsSignedImmediate := by
  refine fun rd imm8 s =>
    ⟨decodeWord_imm 0x7 rd imm8, aluAdd (s.x rd) (sext16 imm8), _, exec_addi rd imm8 s, ?_, ?_⟩
  · exact aluWrite_effect s rd _
  · exact aluAdd_sext16_toNat _ imm8

/-- Settles O26: SUBI is the ALU write of `aluSub` of its register and the sign-extended immediate, the subtrahend. -/
theorem subiSubtractsSignedImmediate : Obligations.SubiSubtractsSignedImmediate := by
  refine fun rd imm8 s =>
    ⟨decodeWord_imm 0x8 rd imm8, aluSub (s.x rd) (sext16 imm8), _, exec_subi rd imm8 s, ?_, ?_⟩
  · exact aluWrite_effect s rd _
  · exact aluSub_sext16_toNat _ imm8

end Sys2Proof.Proofs
end

section
/-! The unassigned opcodes 0xE and 0xF (44_control_transfer R173): the words of the two rows, what such a word executes to, and
that no other word raises DecodeFault. A step on one is then that raise in the advanced state. -/

namespace Sys2Proof

theorem decodeWord_unassignedE (ignored : BitVec 12) : decodeWord (0xE#4 ++ ignored) = .unassignedE ignored := by
  obtain ⟨hop, hrest⟩ := cutFields_ignored 0xE#4 ignored
  rw [decodeWord, instrOfFields, hop, hrest]
  rfl

theorem decodeWord_unassignedF (ignored : BitVec 12) : decodeWord (0xF#4 ++ ignored) = .unassignedF ignored := by
  obtain ⟨hop, hrest⟩ := cutFields_ignored 0xF#4 ignored
  rw [decodeWord, instrOfFields, hop, hrest]
  rfl

/-- The words from 0xE000 up are those of the two unassigned rows (30_encoding R95). -/
theorem eq_unassigned_of_le {w : Word} (h : 0xE000 ≤ w.toNat) :
    ∃ ignored : BitVec 12, w = 0xE#4 ++ ignored ∨ w = 0xF#4 ++ ignored := by
  have hlow : (w.extractLsb' 0 12).toNat = w.toNat % 4096 := BitVec.extractLsb'_toNat ..
  have hw := w.isLt
  refine ⟨w.extractLsb' 0 12, ?_⟩
  rcases Nat.lt_or_ge w.toNat 0xF000 with hE | hF
  · refine .inl (BitVec.eq_of_toNat_eq ?_)
    rw [append_toNat, hlow, BitVec.toNat_ofNat]
    omega
  · refine .inr (BitVec.eq_of_toNat_eq ?_)
    rw [append_toNat, hlow, BitVec.toNat_ofNat]
    omega

/-- The row a word decodes to is that of its top nibble (30_encoding R82, R95). -/
theorem decodeWord_opcode_toNat (w : Word) : (decodeWord w).opcode.toNat = w.toNat / 4096 := by
  rw [decodeWord, instrOfFields_opcode, cutFields_opcode_toNat]

end Sys2Proof

namespace Sys2Proof.Machine

variable {s : State} {w : Word}

theorem exec_unassignedE (ignored : BitVec 12) (s : State) :
    exec (.unassignedE ignored) s = .next (s.raise (.decode s.fetchedFrom (0xE#4 ++ ignored))) := rfl

theorem exec_unassignedF (ignored : BitVec 12) (s : State) :
    exec (.unassignedF ignored) s = .next (s.raise (.decode s.fetchedFrom (0xF#4 ++ ignored))) := rfl

/-- An unassigned word raises DecodeFault and does nothing else; the report's word is the fetched one, bit for bit. -/
theorem exec_decodeWord_of_unassigned (h : 0xE000 ≤ w.toNat) (s : State) :
    exec (decodeWord w) s = .next (s.raise (.decode s.fetchedFrom w)) := by
  obtain ⟨ignored, rfl | rfl⟩ := eq_unassigned_of_le h
  · rw [decodeWord_unassignedE, exec_unassignedE]
  · rw [decodeWord_unassignedF, exec_unassignedF]

/-- DecodeFault is raised by the two unassigned rows alone. -/
theorem Raises.le_opcode_of_decode {i : Instr} {a v : Word} (h : Raises s i (.decode a v)) : 0xE ≤ i.opcode.toNat := by
  cases h with
  | unassignedE => exact Nat.le_refl 14
  | unassignedF => exact Nat.le_succ 14

/-- A step whose fetch reads `w` executes it in the advanced state, hands over and answers. -/
theorem step_of_fetch (hs : s.Steps) (hw : s.mem.readWord s.pc = some w) :
    step s = onNext (onNext (exec (decodeWord w) s.afterPop.advance) State.handOver)
      fun u => { u with answer := s.answerAfterStep } := by
  have hfetch : s.afterPop.mem.readWord s.afterPop.pc = some w := hw
  rw [step_of_steps hs, engineStep, hfetch]

/-- A step on an unassigned word is the raise in the advanced state, whose `pc0` is the address fetched from (60_exceptions
R222). -/
theorem step_of_unassigned (hs : s.Steps) (hw : s.mem.readWord s.pc = some w) (h : 0xE000 ≤ w.toNat) :
    step s = .next
      { (s.afterPop.advance.raise (.decode s.pc w)).handOver with answer := s.answerAfterStep } := by
  rw [step_of_fetch hs hw, exec_decodeWord_of_unassigned h, fetchedFrom_advance, afterPop_pc]
  rfl

end Sys2Proof.Machine

namespace Sys2Proof.Proofs

open Sys2Proof.Machine

/-- Settles O35: the step is the raise of `step_of_unassigned`; conversely, from an empty report only a raise sends one, and
the row that raises DecodeFault has the opcode of the fetched word. -/
theorem stepOnUnassignedWordHalts : Obligations.StepOnUnassignedWordHalts := by
  refine ⟨fun s w hs hw hle => ?_, fun s t a v hs hnone ht hreport => ?_⟩
  · refine ⟨_, step_of_unassigned hs hw hle, advance_pc s.afterPop, fun i hi => ?_, SameMemory.of_eq rfl, rfl, rfl⟩
    exact (advance_x s.afterPop i).trans (if_neg hi)
  · rcases step_cases hs ht with ⟨_, rfl⟩ | ⟨w, u, hw, hexec, rfl⟩
    · cases hreport
    · have hu : u.report = some (.decode a v) := hreport
      rcases exec_cases hexec with ⟨_, _, hkept, _⟩ | ⟨_, rfl⟩ | ⟨f, hf, rfl⟩
      · cases hu.symm.trans (hkept.trans hnone)
      · cases hu.symm.trans hnone
      · cases hu
        have hop := hf.le_opcode_of_decode
        rw [decodeWord_opcode_toNat] at hop
        exact ⟨w, hw, by omega⟩

end Sys2Proof.Proofs
end

section
/-! The rejection of `step_once` while Halted (45_control R198): the grant answers and does nothing else. -/

namespace Sys2Proof.Machine

/-- A granted `step_once` while Halted takes its request off the schedule and leaves the answer; nothing is fetched. -/
theorem step_stepOnce_halted {s : State} (hreq : s.nextRequest = .stepOnce) (hmode : s.mode = .halted) :
    step s = .next (s.afterPop.answerWith .stepRejected) := by
  rw [step, hreq, grant, grantStepOnce_halted (s := s.afterPop) hmode]

end Sys2Proof.Machine

namespace Sys2Proof.Proofs

open Sys2Proof.Machine

/-- Settles O54: the step is that of `step_stepOnce_halted`, which writes the schedule and the answer only. -/
theorem stepOnceIsRejectedWhileHalted : Obligations.StepOnceIsRejectedWhileHalted := by
  intro s hreq hmode
  have hstep := step_stepOnce_halted hreq hmode
  exact ⟨_, hstep, rfl, hmode, rfl, fun _ => rfl, SameMemory.of_eq rfl, rfl⟩

end Sys2Proof.Proofs
end

section
/-! A data access out of range (43_load_store R161, R162, 60_exceptions R224): every word is the encoding of the instruction it
decodes to, so the report's word is the fetched one; and LW and SW out of range alone raise the data BoundsFault. -/

namespace Sys2Proof

/-- Opcode, first register field and low byte are the whole word (30_encoding R82, R83, R86). -/
theorem cutFields_append_imm (w : Word) :
    (cutFields w).opcode ++ (cutFields w).first ++ (cutFields w).imm8 = w := by
  apply BitVec.eq_of_toNat_eq
  rw [append_toNat, append_toNat, cutFields_opcode_toNat, cutFields_first_toNat, cutFields_imm8_toNat]
  omega

/-- The second and the third register field are the two nibbles of the low byte (30_encoding R87). -/
theorem cutFields_append_nibbles (w : Word) : (cutFields w).rs ++ (cutFields w).rt = (cutFields w).imm8 := by
  apply BitVec.eq_of_toNat_eq
  rw [append_toNat, cutFields_rs_toNat, cutFields_rt_toNat, cutFields_imm8_toNat]
  omega

/-- The encoder puts the fields of every row back where the decoder cuts them (30_encoding R89, R95). The layouts group the low
twelve bits differently: three indices (rows 0 to 6), an index and a byte (7 to 12), one ignored field (13 to 15). -/
theorem encode_instrOfFields {f : Fields} (hnibbles : f.rs ++ f.rt = f.imm8) :
    encode (instrOfFields f) = f.opcode ++ f.first ++ f.imm8 := by
  obtain ⟨⟨⟨n, hn⟩⟩, first, rs, rt, imm8⟩ := f
  obtain rfl : rs ++ rt = imm8 := hnibbles
  interval_cases n
  iterate 7 · exact BitVec.append_assoc
  iterate 6 · rfl
  iterate 3 · exact (BitVec.append_assoc (x₂ := first) (x₃ := rs ++ rt)).symm

/-- No bit of a word is lost by decoding (30_encoding R87, R97). -/
theorem encode_decodeWord (w : Word) : encode (decodeWord w) = w :=
  (encode_instrOfFields (cutFields_append_nibbles w)).trans (cutFields_append_imm w)

end Sys2Proof

namespace Sys2Proof.Machine

variable {s : State} {w : Word} {r rs : Reg} {imm8 : BitVec 8}

/-- LW and SW out of range raise the data BoundsFault and do nothing else; the report's word is the fetched one, bit for bit. -/
theorem exec_decodeWord_of_outOfRange (hdec : decodeWord w = .lw r rs imm8 ∨ decodeWord w = .sw r rs imm8)
    (h : 4094 < (effectiveAddress s rs imm8).toNat) :
    exec (decodeWord w) s = .next (s.raise (.boundsData s.fetchedFrom w (effectiveAddress s rs imm8))) := by
  have hword := encode_decodeWord w
  rcases hdec with hlw | hsw
  · rw [hlw] at hword ⊢
    rw [exec, execLw_outOfRange h, hword]
  · rw [hsw] at hword ⊢
    rw [exec, execSw_outOfRange h, hword]

/-- The data BoundsFault is raised by LW and SW alone, with the effective address out of range. -/
theorem Raises.outOfRange_of_boundsData {i : Instr} {a v e : Word} (h : Raises s i (.boundsData a v e)) :
    ∃ r rs imm8, (i = .lw r rs imm8 ∨ i = .sw r rs imm8) ∧ 4094 < (effectiveAddress s rs imm8).toNat := by
  cases h with
  | lw hea => exact ⟨_, _, _, .inl rfl, hea⟩
  | sw hea => exact ⟨_, _, _, .inr rfl, hea⟩

/-- A step on LW or SW out of range is the raise in the advanced state, whose `pc0` is the address fetched from and whose
effective address is computed after the advance (60_exceptions R224). -/
theorem step_of_dataOutOfRange (hs : s.Steps) (hw : s.mem.readWord s.pc = some w)
    (hdec : decodeWord w = .lw r rs imm8 ∨ decodeWord w = .sw r rs imm8)
    (h : 4094 < (effectiveAddress s.advance rs imm8).toNat) :
    step s = .next
      { (s.afterPop.advance.raise (.boundsData s.pc w (effectiveAddress s.advance rs imm8))).handOver with
        answer := s.answerAfterStep } := by
  rw [step_of_fetch hs hw, exec_decodeWord_of_outOfRange (s := s.afterPop.advance) hdec h, fetchedFrom_advance, afterPop_pc]
  rfl

end Sys2Proof.Machine

namespace Sys2Proof.Proofs

open Sys2Proof.Machine

/-- Settles O39: the step is the raise of `step_of_dataOutOfRange`; conversely, from an empty report only a raise sends one, and
the data BoundsFault is raised by LW and SW out of range alone. -/
theorem dataAccessOutOfRangeHalts : Obligations.DataAccessOutOfRangeHalts := by
  refine ⟨fun s w r rs imm8 hs hw hdec hea => ?_, fun s t a v e hs hnone ht hreport => ?_⟩
  · refine ⟨_, step_of_dataOutOfRange hs hw hdec hea, rfl, rfl, advance_pc s.afterPop, fun i hi => ?_, SameMemory.of_eq rfl⟩
    exact (advance_x s.afterPop i).trans (if_neg hi)
  · rcases step_cases hs ht with ⟨_, rfl⟩ | ⟨w, u, hw, hexec, rfl⟩
    · cases hreport
    · have hu : u.report = some (.boundsData a v e) := hreport
      rcases exec_cases hexec with ⟨_, _, hkept, _⟩ | ⟨_, rfl⟩ | ⟨f, hf, rfl⟩
      · cases hu.symm.trans (hkept.trans hnone)
      · cases hu.symm.trans hnone
      · cases hu
        obtain ⟨r, rs, imm8, hdec, hea⟩ := hf.outOfRange_of_boundsData
        exact ⟨w, r, rs, imm8, hw, hdec, hea⟩

end Sys2Proof.Proofs
end

section
/-! The reset state through its accessors (70_reset R251), and the obligation of 70_reset. -/

namespace Sys2Proof.Machine

/-- Every slot is cleared at reset but the stack pointer, which is at the top of memory (70_reset R251). -/
theorem reset_x (i : Reg) : State.reset.x i = if i = Config.spIdx then Config.spReset else 0 := by
  have hslot : 14 = i.toNat ↔ i = Config.spIdx := by bv_omega
  simp only [x_def, State.reset, Vector.getElem_set, Vector.getElem_replicate, hslot]

theorem reset_x_of_ne {i : Reg} (h : i ≠ Config.spIdx) : State.reset.x i = 0 := (reset_x i).trans (if_neg h)

theorem reset_fl : State.reset.fl = 0 := reset_x_of_ne (by decide)

/-- Every byte of memory is clear at reset: the memory list is empty (20_memory R50, 70_reset R251). -/
theorem reset_readByte {a : Word} (h : a.toNat ≤ 4095) : State.reset.mem.readByte a = some 0 := Memory.readByte_eq [] h

end Sys2Proof.Machine

namespace Sys2Proof.Proofs

open Sys2Proof.Machine

/-- Settles O48: slots 0 to 13 and 15 are not the stack pointer, so `reset_x` clears them; Z and N are bits of slot 13. -/
theorem resetStateIsAsSpecified : Obligations.ResetStateIsAsSpecified := by
  have hlow (i : Reg) (hi : i.toNat ≤ 13) : i ≠ Config.spIdx := by bv_omega
  refine ⟨fun i hi => reset_x_of_ne (hlow i hi), ?zFlag, ?nFlag, reset_x 14,
    reset_x_of_ne (by decide), fun _ => reset_readByte, rfl⟩
  case zFlag => simp [State.zFlag, reset_fl]
  case nFlag => simp [State.nFlag, reset_fl]

end Sys2Proof.Proofs
end

section
/-! The wire contract (30_encoding sections 1 to 5): decoding and encoding undo each other, every word has an instruction, the
opcode nibble selects its row, and the immediate field overlaps the two lower register fields. -/

namespace Sys2Proof

theorem decodeWord_halt (ignored : BitVec 12) : decodeWord (0xD#4 ++ ignored) = .halt ignored := by
  obtain ⟨hop, hrest⟩ := cutFields_ignored 0xD#4 ignored
  rw [decodeWord, instrOfFields, hop, hrest]
  rfl

/-- The opcode map makes well-formed terms only, of fields that overlap as those of a word do (30_encoding R87, R92): the overlap is
asked of rows 9 and 10 alone, LW and SW. -/
theorem wellFormed_instrOfFields {f : Fields} (hoverlap : f.imm8.extractLsb' 4 4 = f.rs) : (instrOfFields f).WellFormed := by
  obtain ⟨⟨⟨n, hn⟩⟩, first, rs, rt, imm8⟩ := f
  interval_cases n
  iterate 9 · exact trivial
  iterate 2 · exact hoverlap
  iterate 5 · exact trivial

theorem cutFields_overlap (w : Word) : (cutFields w).imm8.extractLsb' 4 4 = (cutFields w).rs := by
  apply BitVec.eq_of_toNat_eq
  rw [BitVec.extractLsb'_toNat, cutFields_imm8_toNat, cutFields_rs_toNat, Nat.shiftRight_eq_div_pow]
  omega

theorem wellFormed_decodeWord (w : Word) : (decodeWord w).WellFormed := wellFormed_instrOfFields (cutFields_overlap w)

/-- No instruction is lost by encoding (30_encoding R89, R95). The base index of LW and SW is not encoded by itself: it comes back
as the high nibble of the offset byte, which is where well-formedness is needed. -/
theorem decodeWord_encode {i : Instr} (hwf : i.WellFormed) : decodeWord (encode i) = i := by
  cases i with
  | add | sub | and | or | xor | sll | srl => exact decodeWord_three ..
  | addi | subi | bz | jr => exact decodeWord_imm ..
  | lw rd rs imm8 =>
    obtain rfl : imm8.extractLsb' 4 4 = rs := hwf
    exact decodeWord_imm 0x9 rd imm8
  | sw ra rs imm8 =>
    obtain rfl : imm8.extractLsb' 4 4 = rs := hwf
    exact decodeWord_imm 0xA ra imm8
  | halt ignored => exact decodeWord_halt ignored
  | unassignedE ignored => exact decodeWord_unassignedE ignored
  | unassignedF ignored => exact decodeWord_unassignedF ignored

theorem decode_cons_cons (hi lo : Byte) (rest : List Byte) :
    decode (hi :: lo :: rest) = .ok (decodeWord (wordOfBytes hi lo), rest) := rfl

/-- The overlap of well-formed LW and SW as a number: the base index is the offset byte's high nibble (30_encoding R92). -/
theorem Instr.baseAgrees.toNat_eq {rs : Reg} {imm8 : BitVec 8} (h : Instr.baseAgrees rs imm8) : rs.toNat = imm8.toNat / 16 := by
  have hbyte := imm8.isLt
  rw [← h, BitVec.extractLsb'_toNat, Nat.shiftRight_eq_div_pow]
  omega

end Sys2Proof

namespace Sys2Proof.Proofs

open Sys2Proof.Machine

/-- Settles O4: the two bytes join to the encoded word, and decoding that word undoes encoding. -/
theorem decodeOfEncodeIsIdentity : Obligations.DecodeOfEncodeIsIdentity := by
  intro i rest hwf
  calc decode (encodeBytes i ++ rest)
      = .ok (decodeWord (wordOfBytes (highByte (encode i)) (lowByte (encode i))), rest) := decode_cons_cons ..
    _ = .ok (i, rest) := by rw [wordOfBytes_high_low, decodeWord_encode hwf]

/-- Settles O5: the overlap of a word's fields makes its instruction well formed, and the encoder puts the fields back. -/
theorem everyWordDecodesAndEncodesBack : Obligations.EveryWordDecodesAndEncodesBack :=
  fun w => ⟨wellFormed_decodeWord w, encode_decodeWord w⟩

/-- Settles O2: the numbers of the three fields, and well-formedness of what a word decodes to. -/
theorem immediateOverlapsRegisterFields : Obligations.ImmediateOverlapsRegisterFields := by
  refine fun w => ⟨?_, fun r rs imm8 hdec => ?_⟩
  · rw [cutFields_imm8_toNat, cutFields_rs_toNat, cutFields_rt_toNat]
    omega
  · have hwf := wellFormed_decodeWord w
    rcases hdec with hlw | hsw
    · rw [hlw] at hwf
      exact Instr.baseAgrees.toNat_eq hwf
    · rw [hsw] at hwf
      exact Instr.baseAgrees.toNat_eq hwf

/-- Settles O8: the opcodes 0xE and 0xF are the two unassigned rows'. -/
theorem opcodeNibbleSelectsTheRow : Obligations.OpcodeNibbleSelectsTheRow := by
  intro w
  have hop := decodeWord_opcode_toNat w
  refine ⟨hop, fun ⟨ignored, hdec⟩ => ?_, fun hle => ?_⟩
  · rcases hdec with hE | hF
    · rw [hE] at hop
      have : 14 = w.toNat / 4096 := hop
      omega
    · rw [hF] at hop
      have : 15 = w.toNat / 4096 := hop
      omega
  · obtain ⟨ignored, rfl | rfl⟩ := eq_unassigned_of_le hle
    · exact ⟨ignored, .inl (decodeWord_unassignedE ignored)⟩
    · exact ⟨ignored, .inr (decodeWord_unassignedF ignored)⟩

/-- Settles O3: extending a byte by its sign keeps its signed value. -/
theorem signExtensionKeepsSignedValue : Obligations.SignExtensionKeepsSignedValue :=
  fun v => ⟨sext16_toNat v, BitVec.toInt_signExtend_of_le (by decide)⟩

/-- Settles O6: the first byte counts 256 times, and each byte sequence is a case of the decoder. -/
theorem decodeReadsTwoBytesBigEndian : Obligations.DecodeReadsTwoBytesBigEndian :=
  ⟨fun hi lo rest => ⟨wordOfBytes hi lo, wordOfBytes_toNat hi lo, decode_cons_cons hi lo rest⟩, fun _ => rfl, rfl⟩

/-- Settles O7: eleven runs of the decoder on closed words. -/
theorem writtenOutWordsDecode : Obligations.WrittenOutWordsDecode := by
  unfold Obligations.WrittenOutWordsDecode
  decide

end Sys2Proof.Proofs
end

section
/-! The control port (45_control sections 1 to 4): each grant as one equation on the whole state, and what follows for a Halted
engine. -/

namespace Sys2Proof.Machine

variable {s t : State}

/-! ### The grants -/

theorem step_tick_running (hreq : s.nextRequest = .tick) (hmode : s.mode = .running) : step s = engineStep s.afterPop := by
  rw [step, hreq, grant, grantTick_running (s := s.afterPop) hmode]

theorem step_tick_idle (hreq : s.nextRequest = .tick) (hmode : s.mode ≠ .running) : step s = .next s.afterPop := by
  rw [step, hreq, grant, grantTick_idle (s := s.afterPop) hmode]

theorem grantStartRun_paused (h : s.mode = .paused) : grantStartRun s = { s with mode := .running }.answerWith .done := by
  rw [grantStartRun, h]

theorem grantStartRun_running (h : s.mode = .running) : grantStartRun s = s.answerWith .done := by
  rw [grantStartRun, h]

theorem grantStartRun_halted (h : s.mode = .halted) : grantStartRun s = s.answerWith .runRejected := by
  rw [grantStartRun, h]

theorem grantPause_running (h : s.mode = .running) : grantPause s = { s with mode := .paused }.answerWith .done := by
  rw [grantPause, h]

theorem grantPause_idle (h : s.mode ≠ .running) : grantPause s = s.answerWith .done := by
  cases hmode : s.mode with
  | running => exact absurd hmode h
  | paused | halted => rw [grantPause, hmode]

theorem step_startRun (hreq : s.nextRequest = .startRun) : step s = .next (grantStartRun s.afterPop) := by
  rw [step, hreq, grant]

theorem step_pause (hreq : s.nextRequest = .pause) : step s = .next (grantPause s.afterPop) := by
  rw [step, hreq, grant]

theorem step_reset (hreq : s.nextRequest = .reset) : step s = .next (grantReset s.afterPop) := by
  rw [step, hreq, grant]

theorem step_getSnapshot (hreq : s.nextRequest = .getSnapshot) :
    step s = .next (s.afterPop.answerWith (.snapshot s.snapshot)) := by
  rw [step, hreq, grant]
  rfl

theorem step_loadProgram_rejected {bytes : List Byte} {base : Word} (hreq : s.nextRequest = .loadProgram bytes base)
    (hlong : 4096 < base.toNat + bytes.length) : step s = .next (s.afterPop.answerWith .loadRejected) := by
  rw [step, hreq, grant, grantLoad_rejected hlong]

/-! ### The snapshot -/

theorem snapshot_window_length (s : State) : s.snapshot.memoryWindow.length = Config.snapWindow.val := by
  simp [State.snapshot, Memory.window]

/-- The window shows memory from address 0 on, byte by byte (45_control R205): the parameter is at most the capacity. -/
theorem snapshot_window_byte (s : State) (a : Word) (h : a.toNat < s.snapshot.memoryWindow.length) :
    s.mem.readByte a = some s.snapshot.memoryWindow[a.toNat] := by
  have hcap : Config.snapWindow.val < 4097 := Config.snapWindow.isLt
  have hlen := snapshot_window_length s
  rw [Memory.readByte_eq _ (by omega)]
  simp [State.snapshot, Memory.window]

/-! ### A Halted engine -/

/-- The request granted to a schedule that keeps Halted keeps Halted: it is the head, or the tick of an empty schedule. -/
theorem nextRequest_keepsHalted (h : ∀ r ∈ s.schedule, r.KeepsHalted) : s.nextRequest.KeepsHalted := by
  rw [State.nextRequest]
  cases hsched : s.schedule with
  | nil => exact trivial
  | cons r rs => exact h r (hsched ▸ List.mem_cons_self)

/-- A Halted engine granted anything but a reset or an accepted load changes nothing but the answer (45_control R194). -/
theorem step_of_halted (hmode : s.mode = .halted) (hkeeps : s.nextRequest.KeepsHalted) :
    ∃ a, step s = .next { s.afterPop with answer := a } := by
  have hidle : s.mode ≠ .running := by rw [hmode]; decide
  cases hreq : s.nextRequest with
  | tick => exact ⟨s.answer, step_tick_idle hreq hidle⟩
  | startRun =>
    refine ⟨some .runRejected, ?_⟩
    rw [step_startRun hreq, grantStartRun_halted (s := s.afterPop) hmode]
    rfl
  | pause =>
    refine ⟨some .done, ?_⟩
    rw [step_pause hreq, grantPause_idle (s := s.afterPop) hidle]
    rfl
  | stepOnce => exact ⟨_, step_stepOnce_halted hreq hmode⟩
  | reset =>
    rw [hreq] at hkeeps
    exact hkeeps.elim
  | loadProgram bytes base =>
    rw [hreq] at hkeeps
    exact ⟨_, step_loadProgram_rejected hreq hkeeps⟩
  | getSnapshot => exact ⟨_, step_getSnapshot hreq⟩

/-- Any number of such grants changes nothing but the answer and the schedule. -/
theorem run_of_halted (n : Nat) (hmode : s.mode = .halted) (hkeeps : ∀ r ∈ s.schedule, r.KeepsHalted) :
    ∃ a, Host.Core.run core n s = .next { s with answer := a, schedule := s.schedule.drop n } := by
  induction n generalizing s with
  | zero => exact ⟨s.answer, rfl⟩
  | succ n ih =>
    obtain ⟨a, hstep⟩ := step_of_halted hmode (nextRequest_keepsHalted hkeeps)
    obtain ⟨b, hrun⟩ := ih (s := { s.afterPop with answer := a }) hmode fun r hr => hkeeps r (List.mem_of_mem_tail hr)
    refine ⟨b, ?_⟩
    rw [run_succ_of_next hstep, hrun, afterPop_schedule, List.drop_tail]
    rfl

/-- An empty schedule has nothing to take off. -/
theorem afterPop_of_empty (h : s.schedule = []) : s.afterPop = s := by
  rw [State.afterPop, h, List.tail_nil, ← h]

end Sys2Proof.Machine

namespace Sys2Proof.Proofs

open Sys2Proof.Machine

/-- Settles O51: the run is that of `run_of_halted`, which writes the answer and the schedule only. -/
theorem haltedIsTerminalUntilResetOrLoad : Obligations.HaltedIsTerminalUntilResetOrLoad := by
  intro n s hmode hkeeps
  obtain ⟨a, hrun⟩ := run_of_halted n hmode hkeeps
  exact ⟨_, hrun, hmode, rfl, fun _ => rfl, SameMemory.of_eq rfl, rfl, rfl⟩

/-- Settles O50, by induction on the number of grants: each is an idle tick, which answers nobody. -/
theorem haltedTicksChangeNothing : Obligations.HaltedTicksChangeNothing := by
  intro n s hmode hempty
  have htick : s.nextRequest = .tick := by rw [State.nextRequest, hempty, List.headD_nil]
  have hstep : step s = .next s := by
    rw [step_tick_idle htick (by rw [hmode]; decide), afterPop_of_empty hempty]
  induction n with
  | zero => rfl
  | succ n ih => rw [run_succ_of_next hstep, ih]

/-- Settles O49: the mode decides between the two cases of a granted tick. -/
theorem tickStepsOnlyWhileRunning : Obligations.TickStepsOnlyWhileRunning :=
  fun _ hreq => ⟨step_tick_running hreq, step_tick_idle hreq⟩

/-- Settles O52: in each mode the step is that mode's equation of `grantStartRun`, and the other modes' clauses are void. -/
theorem startRunByMode : Obligations.StartRunByMode := by
  intro s hreq
  have hstep := step_startRun hreq
  cases hmode : s.mode with
  | paused =>
    rw [grantStartRun_paused (s := s.afterPop) hmode] at hstep
    exact ⟨_, hstep, fun _ => rfl, SameMemory.of_eq rfl, rfl, rfl, fun _ => ⟨rfl, rfl⟩, nofun, nofun⟩
  | running =>
    rw [grantStartRun_running (s := s.afterPop) hmode] at hstep
    exact ⟨_, hstep, fun _ => rfl, SameMemory.of_eq rfl, rfl, rfl, nofun, fun _ => ⟨hmode, rfl⟩, nofun⟩
  | halted =>
    rw [grantStartRun_halted (s := s.afterPop) hmode] at hstep
    exact ⟨_, hstep, fun _ => rfl, SameMemory.of_eq rfl, rfl, rfl, nofun, nofun, fun _ => ⟨hmode, rfl⟩⟩

/-- Settles O53: only a Running engine has its mode written. -/
theorem pauseByMode : Obligations.PauseByMode := by
  intro s hreq
  have hstep := step_pause hreq
  by_cases hmode : s.mode = .running
  · rw [grantPause_running (s := s.afterPop) hmode] at hstep
    exact ⟨_, hstep, fun _ => rfl, SameMemory.of_eq rfl, rfl, rfl, rfl, (if_pos hmode).symm⟩
  · rw [grantPause_idle (s := s.afterPop) hmode] at hstep
    exact ⟨_, hstep, fun _ => rfl, SameMemory.of_eq rfl, rfl, rfl, rfl, (if_neg hmode).symm⟩

/-- Settles O55: the registers and memory of the state after are those of `State.reset`. -/
theorem resetCommandRestoresTheCreationState : Obligations.ResetCommandRestoresTheCreationState :=
  fun _ hreq => ⟨_, step_reset hreq, reset_x, fun _ => reset_readByte, rfl, rfl, rfl, rfl⟩

/-- Settles O56: the bytes inside and outside the range are those of `storeBytes`, and slot 15 is the only slot written. -/
theorem loadProgramCopiesTheBytes : Obligations.LoadProgramCopiesTheBytes := by
  intro s bytes base hreq hfit
  refine ⟨_, step_loadProgram_accepted hreq hfit, fun a hin hle => ?_, fun a hout => ?_, ?_, fun i hi => ?_, rfl, rfl, rfl, rfl⟩
  · rw [answerWith_mem, setX_mem, Memory.readByte_eq _ (by omega), ← Memory.get_storeBytes_inside s.mem hin,
      Nat.add_sub_cancel' hle]
  · exact Memory.readByte_congr (Memory.get_storeBytes_outside s.mem hout)
  · rw [answerWith_pc, State.pc, x_setX, if_pos rfl]
  · rw [answerWith_x, x_setX, if_neg hi]
    rfl

/-- Settles O57: a load rejected only leaves its answer. -/
theorem oversizedLoadIsRejectedWhole : Obligations.OversizedLoadIsRejectedWhole :=
  fun _ _ _ hreq hlong =>
    ⟨_, step_loadProgram_rejected hreq hlong, rfl, fun _ => rfl, SameMemory.of_eq rfl, rfl, rfl, rfl⟩

/-- Settles O59: the answer is the state's snapshot, and answering writes nothing else. -/
theorem getSnapshotAnswersTheState : Obligations.GetSnapshotAnswersTheState :=
  fun s hreq => ⟨_, s.snapshot, step_getSnapshot hreq, rfl, rfl, rfl, rfl, rfl, fun _ => rfl, snapshot_window_length s,
    snapshot_window_byte s, fun _ => rfl, SameMemory.of_eq rfl, rfl, rfl⟩

end Sys2Proof.Proofs
end

section
/-! What an instruction writes and what it leaves (10_state R24, 20_memory R61, 60_exceptions section 4), the flags of the
ALU-class operations, and the two shifts. -/

namespace Sys2Proof.Machine

variable {s t : State} {i : Instr}

theorem exec_sll (rd rs rt : Reg) (s : State) :
    exec (.sll rd rs rt) s = .next (s.aluWrite rd (aluSll (s.x rs) (s.x rt))) := rfl

theorem exec_srl (rd rs rt : Reg) (s : State) :
    exec (.srl rd rs rt) s = .next (s.aluWrite rd (aluSrl (s.x rs) (s.x rt))) := rfl

/-- Every instruction has an effect in every state: a fault is a next state too (40_step_cycle R123). -/
theorem exec_goesOn (i : Instr) (s : State) : ∃ t, exec i s = .next t := by
  cases i with
  | add | sub | and | or | xor | sll | srl | addi | subi | jr | halt | unassignedE | unassignedF => exact ⟨_, rfl⟩
  | bz ra imm8 =>
    by_cases hz : s.x ra = 0
    · exact ⟨_, execBz_taken hz⟩
    · exact ⟨_, execBz_notTaken hz⟩
  | lw rd rs imm8 =>
    rcases Nat.lt_or_ge 4094 (effectiveAddress s rs imm8).toNat with ha | ha
    · exact ⟨_, execLw_outOfRange ha⟩
    · exact ⟨_, execLw_inRange ha⟩
  | sw ra rs imm8 =>
    rcases Nat.lt_or_ge 4094 (effectiveAddress s rs imm8).toNat with ha | ha
    · exact ⟨_, execSw_outOfRange ha⟩
    · exact ⟨_, execSw_inRange ha⟩

/-- Everything an instruction can write to registers and memory: a result with its flags, one slot, the two bytes of SW's word, or
nothing (a raise, HALT, a branch not taken). -/
theorem exec_writes (h : exec i s = .next t) :
    (∃ rd r, i.slotsWritten = [rd, Config.flIdx] ∧ t = s.aluWrite rd r) ∨
    (∃ r v, i.slotsWritten = [r] ∧ t = s.setX r v) ∨
    (∃ ra rs imm8 m, i = .sw ra rs imm8 ∧ s.mem.writeWord (effectiveAddress s rs imm8) (s.x ra) = some m ∧
      t = { s with mem := m }) ∨
    (t.regs = s.regs ∧ t.mem = s.mem) := by
  cases i with
  | add | sub | and | or | xor | sll | srl | addi | subi =>
    cases h
    exact .inl ⟨_, _, rfl, rfl⟩
  | jr =>
    cases h
    exact .inr (.inl ⟨_, _, rfl, rfl⟩)
  | halt | unassignedE | unassignedF =>
    cases h
    exact .inr (.inr (.inr ⟨rfl, rfl⟩))
  | bz ra imm8 =>
    by_cases hz : s.x ra = 0
    · cases (execBz_taken hz).symm.trans h
      exact .inr (.inl ⟨_, _, rfl, rfl⟩)
    · cases (execBz_notTaken hz).symm.trans h
      exact .inr (.inr (.inr ⟨rfl, rfl⟩))
  | lw rd rs imm8 =>
    rcases Nat.lt_or_ge 4094 (effectiveAddress s rs imm8).toNat with ha | ha
    · cases (execLw_outOfRange ha).symm.trans h
      exact .inr (.inr (.inr ⟨rfl, rfl⟩))
    · cases (execLw_inRange ha).symm.trans h
      exact .inr (.inl ⟨_, _, rfl, rfl⟩)
  | sw ra rs imm8 =>
    rcases Nat.lt_or_ge 4094 (effectiveAddress s rs imm8).toNat with ha | ha
    · cases (execSw_outOfRange ha).symm.trans h
      exact .inr (.inr (.inr ⟨rfl, rfl⟩))
    · cases (execSw_inRange ha).symm.trans h
      exact .inr (.inr (.inl ⟨ra, rs, imm8, _, rfl, Memory.writeWord_eq _ ha _, rfl⟩))

/-- The table of slots written: a slot it does not list for an instruction is left alone (10_state R24). -/
theorem exec_x_of_notMem (h : exec i s = .next t) {r : Reg} (hr : r ∉ i.slotsWritten) : t.x r = s.x r := by
  rcases exec_writes h with ⟨rd, v, hslots, rfl⟩ | ⟨rd, v, hslots, rfl⟩ | ⟨_, _, _, _, _, _, rfl⟩ | ⟨hregs, _⟩
  · have hnot : r ∉ [rd, Config.flIdx] := hslots ▸ hr
    obtain ⟨hrd, hfl⟩ := not_or.mp (List.mem_pair.not.mp hnot)
    rw [aluWrite_x, if_neg hfl, if_neg hrd]
  · have hrd : r ≠ rd := List.mem_singleton.not.mp (hslots ▸ hr)
    rw [x_setX, if_neg hrd]
  · rfl
  · rw [x_def, x_def, hregs]

/-- Memory after an instruction: as before, or SW's word stored (43_load_store R163). -/
theorem exec_mem (h : exec i s = .next t) :
    t.mem = s.mem ∨ ∃ ra rs imm8, i = .sw ra rs imm8 ∧
      s.mem.writeWord (effectiveAddress s rs imm8) (s.x ra) = some t.mem := by
  rcases exec_writes h with ⟨_, _, _, rfl⟩ | ⟨_, _, _, rfl⟩ | ⟨ra, rs, imm8, m, hi, hstore, rfl⟩ | ⟨_, hmem⟩
  · exact .inl rfl
  · exact .inl rfl
  · exact .inr ⟨ra, rs, imm8, hi, hstore⟩
  · exact .inl hmem

/-- An ALU-class operation is an ALU write, whatever its operands (40_step_cycle R119). -/
theorem exec_of_aluClass (hclass : i.aluClass = true) (s : State) : ∃ rd r, exec i s = .next (s.aluWrite rd r) := by
  cases i with
  | add | sub | and | or | xor | sll | srl | addi | subi => exact ⟨_, _, rfl⟩
  | lw | sw | bz | jr | halt | unassignedE | unassignedF => cases hclass

/-- A word that is 0 has bit 15 clear, so Z and N exclude each other (10_state R31). -/
theorem AluEffect.not_zero_and_negative {rd : Reg} {r : Word} (h : AluEffect rd r s t) :
    ¬ (t.zFlag = true ∧ t.nFlag = true) := by
  rintro ⟨hz, hn⟩
  obtain ⟨_, hzero, hneg, _⟩ := h
  have hr : r = 0 := BitVec.eq_of_toNat_eq (of_decide_eq_true (hzero.symm.trans hz))
  cases (hr ▸ hneg).symm.trans hn

end Sys2Proof.Machine

namespace Sys2Proof.Proofs

open Sys2Proof.Machine

/-- Settles O43: the slots by the table, the host's side by `exec_sameHostSide`. -/
theorem onlyListedSlotsChange : Obligations.OnlyListedSlotsChange :=
  fun _ _ _ h => ⟨fun _ hr => exec_x_of_notMem h hr, exec_sameHostSide h⟩

/-- Settles O44: only SW is in the storing case of `exec_mem`, and a word store touches two addresses. -/
theorem onlyStoreWordChangesMemory : Obligations.OnlyStoreWordChangesMemory := by
  intro i s t h
  rcases exec_mem h with hmem | ⟨ra, rs, imm8, rfl, hstore⟩
  · exact ⟨fun _ => SameMemory.of_eq hmem, fun _ _ _ _ a _ _ => SameMemory.of_eq hmem a⟩
  · refine ⟨nofun, fun ra' rs' imm8' hi a hhi hlo => ?_⟩
    cases hi
    rw [Memory.readByte_of_writeWord hstore, if_neg hlo, if_neg hhi]

/-- Settles O45: with no report before, only a raise sends one, and raising does nothing else. -/
theorem faultingInstructionWritesNothing : Obligations.FaultingInstructionWritesNothing := by
  intro i s t h hnone hsent
  rcases exec_cases h with ⟨_, _, hkept, _⟩ | ⟨_, rfl⟩ | ⟨f, _, rfl⟩
  · rw [hkept, hnone] at hsent
    cases hsent
  · have hkept : s.report.isSome = true := hsent
    rw [hnone] at hkept
    cases hkept
  · obtain ⟨hmode, _, hregs, hmem, _⟩ := raise_effect s f
    exact ⟨hmode, hregs, hmem⟩

/-- Settles O24: both flags are those of the one result. -/
theorem zeroAndNegativeAreNeverBothSet : Obligations.ZeroAndNegativeAreNeverBothSet := by
  intro i s t hclass h
  obtain ⟨rd, r, hexec⟩ := exec_of_aluClass hclass s
  cases hexec.symm.trans h
  exact (aluWrite_effect s rd r).not_zero_and_negative

/-- Settles O22: SLL is the ALU write of `aluSll` of its sources, the second the whole amount. -/
theorem sllShiftsByTheWholeAmount : Obligations.SllShiftsByTheWholeAmount := by
  refine fun rd rs rt s => ⟨decodeWord_three 0x5 rd rs rt, aluSll (s.x rs) (s.x rt), _, exec_sll rd rs rt s, ?_, ?_⟩
  · exact aluWrite_effect s rd _
  · exact aluSll_toNat _ _

/-- Settles O23: SRL is the ALU write of `aluSrl` of its sources, the second the whole amount. -/
theorem srlShiftsByTheWholeAmount : Obligations.SrlShiftsByTheWholeAmount := by
  refine fun rd rs rt s => ⟨decodeWord_three 0x6 rd rs rt, aluSrl (s.x rs) (s.x rt), _, exec_srl rd rs rt s, ?_, ?_⟩
  · exact aluWrite_effect s rd _
  · exact aluSrl_toNat _ _

end Sys2Proof.Proofs
end

section
/-! Load and store (43_load_store): the effective address, the displacements the assembler takes, and the effects of LW and SW on
either side of the bound. -/

namespace Sys2Proof.Machine

variable {s t : State}

/-! ### The effective address and the displacements -/

/-- The effective address is ADDI's sum of the base register and the offset (43_load_store R160). -/
theorem effectiveAddress_toNat (s : State) (rs : Reg) (imm8 : BitVec 8) :
    ((effectiveAddress s rs imm8).toNat : Int) = ((s.x rs).toNat + imm8.toInt) % 65536 := aluAdd_sext16_toNat (s.x rs) imm8

/-- The assembler writes a signed number as the byte that reads as it (30_encoding R100). -/
theorem signedByte_eq_some {v : Int} {b : BitVec 8} : signedByte v = some b ↔ b.toInt = v := by
  rw [signedByte, Option.ite_none_right_eq_some, Option.some.injEq]
  constructor
  · rintro ⟨⟨hlow, hhigh⟩, rfl⟩
    exact BitVec.toInt_ofInt_eq_self (by decide) hlow (Int.lt_add_one_of_le hhigh)
  · rintro rfl
    exact ⟨⟨BitVec.le_toInt b, Int.le_of_lt_add_one BitVec.toInt_lt⟩, BitVec.ofInt_toInt⟩

/-- The assembler form of LW gives the one term of those operands, when its offset byte agrees with the base (30_encoding R92). -/
theorem asmLw_eq_some {rd rb : Reg} {disp : Int} {i : Instr} :
    asmLw rd rb disp = some i ↔ ∃ b, b.toInt = disp ∧ Instr.baseAgrees rb b ∧ i = .lw rd rb b := by
  simp only [asmLw, displacementByte, Option.map_eq_some_iff, Option.filter_eq_some_iff, signedByte_eq_some, beq_iff_eq,
    and_assoc, eq_comm (b := i)]

/-- The bytes that agree with a base are the sixteen that have its index for a high nibble (30_encoding section 3). -/
theorem baseAgrees_iff {rb : Reg} {b : BitVec 8} : Instr.baseAgrees rb b ↔ ∃ n : BitVec 4, rb ++ n = b := by
  constructor
  · rintro rfl
    refine ⟨b.extractLsb' 0 4, BitVec.eq_of_toNat_eq ?_⟩
    have hb := b.isLt
    simp only [append_toNat, BitVec.extractLsb'_toNat, Nat.shiftRight_eq_div_pow]
    omega
  · rintro ⟨n, rfl⟩
    apply BitVec.eq_of_toNat_eq
    have hn := n.isLt
    have hrb := rb.isLt
    simp only [append_toNat, BitVec.extractLsb'_toNat, Nat.shiftRight_eq_div_pow]
    omega

/-! ### The two bytes of a word in memory -/

theorem Memory.readByte_succ (m : Memory) {a : Word} (h : a.toNat ≤ 4094) :
    m.readByte (a + 1) = some (m.get (a.toNat + 1)) := by
  have hsucc := succ_toNat h
  rw [readByte_eq m (by omega), hsucc]

/-- A word stored is the word read back (20_memory R57, R58). -/
theorem Memory.readWord_of_writeWord {m m' : Memory} {a v : Word} (h : m.writeWord a v = some m') : m'.readWord a = some v := by
  obtain ⟨ha, hhi⟩ := get_of_writeWord h a.toNat
  obtain ⟨_, hlo⟩ := get_of_writeWord h (a.toNat + 1)
  rw [if_neg (by omega), if_pos rfl] at hhi
  rw [if_pos rfl] at hlo
  rw [readWord_eq m' ha, hhi, hlo, wordOfBytes_high_low]

/-! ### LW and SW on either side of the bound -/

section
variable {r rs : Reg} {imm8 : BitVec 8}

theorem exec_lw_inRange (h : (effectiveAddress s rs imm8).toNat ≤ 4094) :
    exec (.lw r rs imm8) s = .next (s.setX r (wordOfBytes (s.mem.get (effectiveAddress s rs imm8).toNat)
      (s.mem.get ((effectiveAddress s rs imm8).toNat + 1)))) := execLw_inRange h

theorem exec_lw_outOfRange (h : 4094 < (effectiveAddress s rs imm8).toNat) :
    exec (.lw r rs imm8) s =
      .next (s.raise (.boundsData (s.pc - 2) (encode (.lw r rs imm8)) (effectiveAddress s rs imm8))) := execLw_outOfRange h

theorem exec_sw_outOfRange (h : 4094 < (effectiveAddress s rs imm8).toNat) :
    exec (.sw r rs imm8) s =
      .next (s.raise (.boundsData (s.pc - 2) (encode (.sw r rs imm8)) (effectiveAddress s rs imm8))) := execSw_outOfRange h

/-- SW in range stores its word and writes nothing else of the state (43_load_store R162). -/
theorem exec_sw_inRange (r : Reg) (h : (effectiveAddress s rs imm8).toNat ≤ 4094) :
    ∃ m, s.mem.writeWord (effectiveAddress s rs imm8) (s.x r) = some m ∧ exec (.sw r rs imm8) s = .next { s with mem := m } :=
  ⟨_, Memory.writeWord_eq _ h _, execSw_inRange h⟩

end

end Sys2Proof.Machine

namespace Sys2Proof.Proofs

open Sys2Proof.Machine

/-- Settles O27: the sign-extended offset is the signed one modulo 65536. -/
theorem effectiveAddressIsModularSum : Obligations.EffectiveAddressIsModularSum := effectiveAddress_toNat

/-- Settles O28: the byte of a displacement is the one that reads as it, and it agrees with the base when its high nibble is the
base's index. -/
theorem reachableDisplacementsPerBase : Obligations.ReachableDisplacementsPerBase := by
  refine fun rd rb disp => ⟨⟨fun ⟨i, hasm⟩ => ?_, fun ⟨n, hdisp⟩ => ?_⟩, fun i hasm => ?_⟩
  · obtain ⟨b, hdisp, hbase, _⟩ := asmLw_eq_some.mp hasm
    obtain ⟨n, rfl⟩ := baseAgrees_iff.mp hbase
    exact ⟨n, hdisp⟩
  · exact ⟨_, asmLw_eq_some.mpr ⟨rb ++ n, hdisp, baseAgrees_iff.mpr ⟨n, rfl⟩, rfl⟩⟩
  · obtain ⟨b, rfl, hbase, rfl⟩ := asmLw_eq_some.mp hasm
    exact ⟨hbase, decodeWord_encode hbase, b, rfl, fun s => effectiveAddress_toNat s rb b⟩

/-- Settles O29: below the bound LW is a slot write of the two bytes' value, above it a raise. -/
theorem loadWordLoadsOrFaults : Obligations.LoadWordLoadsOrFaults := by
  refine ⟨fun rd rs rt => decodeWord_three 0x9 rd rs rt, fun rd rs imm8 s hin => ?_, fun rd rs imm8 s hout => ?_⟩
  · refine ⟨_, _, _, exec_lw_inRange hin, Memory.readByte_eq _ (by omega), Memory.readByte_succ _ hin, ?_, fun i hi => ?_,
      sameMemory_setX s rd _, sameControl_setX s rd _⟩
    · rw [x_setX, if_pos rfl, wordOfBytes_toNat]
    · rw [x_setX, if_neg hi]
  · exact ⟨_, exec_lw_outOfRange hout, raise_effect s _⟩

/-- Settles O30: below the bound SW is the word store of its register, above it a raise. -/
theorem storeWordStoresOrFaults : Obligations.StoreWordStoresOrFaults := by
  refine ⟨fun ra rs rt => decodeWord_three 0xA ra rs rt, fun ra rs imm8 s hin => ?_, fun ra rs imm8 s hout => ?_⟩
  · obtain ⟨m, hstore, hexec⟩ := exec_sw_inRange ra hin
    obtain ⟨m', hi, lo, hstore', hhi, hlo, hhival, hloval, hframe⟩ :=
      (wordStoreWritesBothBytesOrNone s.mem (effectiveAddress s rs imm8) (s.x ra)).2 hin
    cases hstore.symm.trans hstore'
    exact ⟨hi, lo, _, hexec, hhi, hlo, hhival, hloval, hframe, fun _ => rfl, rfl, rfl, SameHostSide.refl s⟩
  · exact ⟨_, exec_sw_outOfRange hout, raise_effect s _⟩

/-- Settles O16: an SW that sent no report was in range, so its word is read back; a fetch is that same read. -/
theorem storedWordIsTheNextOneFetched : Obligations.StoredWordIsTheNextOneFetched := by
  intro ra rs imm8 s t hexec hnone
  rcases Nat.lt_or_ge 4094 (effectiveAddress s rs imm8).toNat with hout | hin
  · cases (exec_sw_outOfRange hout).symm.trans hexec
    cases hnone
  · obtain ⟨m, hstore, hexec'⟩ := exec_sw_inRange ra hin
    cases hexec'.symm.trans hexec
    have hread : m.readWord (effectiveAddress s rs imm8) = some (s.x ra) := Memory.readWord_of_writeWord hstore
    refine ⟨hin, hread, fun u hmem hpc v hv => ?_⟩
    have hfetch : u.mem.readWord u.pc = some (s.x ra) := by rw [hmem, hpc, hread]
    rw [engineStep, hfetch]
    exact onNext_eq_next.mpr ⟨v, hv, rfl⟩

end Sys2Proof.Proofs
end

section
/-! Control transfer (44_control_transfer R170 to R173): BZ, JR and HALT, the two unassigned rows, and the step that fetches
`JR r15`. -/

namespace Sys2Proof.Machine

variable {s : State} {w : Word}

theorem exec_jr (ra : Reg) (low : BitVec 8) (s : State) : exec (.jr ra low) s = .next (s.setX Config.pcIdx (s.x ra)) := rfl

theorem exec_halt (low : BitVec 12) (s : State) : exec (.halt low) s = .next { s with mode := .halted } := rfl

theorem exec_bz_taken {ra : Reg} (imm8 : BitVec 8) (h : s.x ra = 0) :
    exec (.bz ra imm8) s = .next (s.setX Config.pcIdx (branchTarget s imm8)) := execBz_taken h

theorem exec_bz_notTaken {ra : Reg} (imm8 : BitVec 8) (h : s.x ra ≠ 0) : exec (.bz ra imm8) s = .next s := execBz_notTaken h

theorem setX_pc (s : State) (v : Word) : (s.setX Config.pcIdx v).pc = v := by
  rw [State.pc, x_setX, if_pos rfl]

/-- A write of slot 15 leaves the other slots alone (10_state R21). -/
theorem setX_pcIdx_x_of_ne (s : State) (v : Word) {i : Reg} (h : i ≠ Config.pcIdx) : (s.setX Config.pcIdx v).x i = s.x i := by
  rw [x_setX, if_neg h]

/-- Writing a slot with what it holds changes nothing. -/
theorem setX_self (s : State) (i : Reg) : s.setX i (s.x i) = s := by
  rw [State.setX, State.x, Vector.set_getElem_self]

/-- The target of a taken BZ is ADDI's sum of the advanced program counter and the offset (44_control_transfer R170). -/
theorem branchTarget_toNat (s : State) (imm8 : BitVec 8) :
    ((branchTarget s imm8).toNat : Int) = (s.pc.toNat + imm8.toInt) % 65536 := aluAdd_sext16_toNat s.pc imm8

/-- The words 0xCF00 to 0xCFFF are those of `JR r15` (30_encoding section 5). -/
theorem decodeWord_jr_pc (h : w.toNat / 256 = 0xCF) : ∃ low, decodeWord w = .jr Config.pcIdx low := by
  have hlow : (w.extractLsb' 0 8).toNat = w.toNat % 256 := BitVec.extractLsb'_toNat ..
  have hw : w = 0xC#4 ++ 0xF#4 ++ w.extractLsb' 0 8 := by
    apply BitVec.eq_of_toNat_eq
    rw [append_toNat, append_toNat, hlow, BitVec.toNat_ofNat, BitVec.toNat_ofNat]
    omega
  exact ⟨_, (congrArg decodeWord hw).trans (decodeWord_imm 0xC 0xF _)⟩

end Sys2Proof.Machine

namespace Sys2Proof.Proofs

open Sys2Proof.Machine

/-- Settles O31: a branch taken is a write of slot 15 with the target, one not taken writes nothing. -/
theorem branchIfZeroTestsTheRegister : Obligations.BranchIfZeroTestsTheRegister := by
  refine fun ra imm8 s => ⟨decodeWord_imm 0xB ra imm8, ?_⟩
  by_cases hz : s.x ra = 0
  · refine ⟨_, exec_bz_taken imm8 hz, ?_, fun i hi => setX_pcIdx_x_of_ne s _ hi, sameMemory_setX s _ _, sameControl_setX s _ _⟩
    have hzero : (s.x ra).toNat = 0 := congrArg BitVec.toNat hz
    rw [setX_pc, if_pos hzero, branchTarget_toNat]
  · have hnonzero : (s.x ra).toNat ≠ 0 := fun e => hz (BitVec.eq_of_toNat_eq e)
    exact ⟨s, exec_bz_notTaken imm8 hz, (if_neg hnonzero).symm, fun _ _ => rfl, SameMemory.of_eq rfl, rfl, rfl,
      SameHostSide.refl s⟩

/-- Settles O32: JR is a write of slot 15, whatever its low byte. -/
theorem jumpRegisterIgnoresTheLowByte : Obligations.JumpRegisterIgnoresTheLowByte :=
  fun ra low s => ⟨decodeWord_imm 0xC ra low, _, exec_jr ra low s, setX_pc s _, fun _ hi => setX_pcIdx_x_of_ne s _ hi,
    sameMemory_setX s _ _, sameControl_setX s _ _⟩

/-- Settles O33: HALT writes the mode alone. -/
theorem haltOnlyHalts : Obligations.HaltOnlyHalts :=
  fun low s => ⟨decodeWord_halt low, _, exec_halt low s, rfl, rfl, fun _ => rfl, SameMemory.of_eq rfl, rfl, rfl, rfl⟩

/-- Settles O34: each of the two rows is a raise of DecodeFault. -/
theorem unassignedOpcodesRaiseDecodeFault : Obligations.UnassignedOpcodesRaiseDecodeFault :=
  fun low s => ⟨⟨_, exec_unassignedE low s, raise_effect s _⟩, ⟨_, exec_unassignedF low s, raise_effect s _⟩⟩

/-- Settles O36: `JR r15` writes the advanced program counter back to where it stands, so the advance is all that is left. -/
theorem jumpToProgramCounterOnlyAdvances : Obligations.JumpToProgramCounterOnlyAdvances := by
  intro s w hs hw hjr
  obtain ⟨low, hdec⟩ := decodeWord_jr_pc hjr
  have hstep := step_of_fetch hs hw
  rw [hdec, exec_jr, setX_self] at hstep
  exact ⟨_, hstep, advance_pc s.afterPop, fun i hi => (advance_x s.afterPop i).trans (if_neg hi), SameMemory.of_eq rfl, rfl, rfl⟩

end Sys2Proof.Proofs
end

section
/-! The register port out of range (10_state R25, 60_exceptions R225), and that memory's canonical form is unique (log entry 12). -/

namespace Sys2Proof.Machine

theorem setRegister_of_le {idx : Nat} (s : State) (v : Word) (h : 16 ≤ idx) : s.setRegister idx v = .error (.index idx) :=
  if_neg (Nat.not_lt.mpr h)

namespace Memory

/-- A byte that is not the reset contents has an entry. -/
theorem mem_of_get_ne {m : Memory} {a : Nat} (h : m.get a ≠ Config.unlistedByte) : (a, m.get a) ∈ m := by
  induction m with
  | nil => exact absurd rfl h
  | cons c m ih =>
    rw [get] at h ⊢
    split
    next ha => exact List.mem_cons.mpr (.inl (Prod.ext ha rfl))
    next ha =>
      rw [if_neg ha] at h
      exact List.mem_cons_of_mem _ (ih h)

/-- In a list of rising addresses no entry is hidden by an earlier one: each is what its address reads. -/
theorem get_of_mem {m : Memory} {c : Host.Cell} (hrising : m.Pairwise (fun c d => c.1 < d.1)) (hc : c ∈ m) :
    m.get c.1 = c.2 := by
  induction m with
  | nil => cases hc
  | cons d m ih =>
    obtain ⟨hd, hm⟩ := List.pairwise_cons.mp hrising
    rw [get]
    rcases List.mem_cons.mp hc with rfl | hc
    · rw [if_pos rfl]
    · rw [if_neg (Nat.ne_of_gt (hd c hc)), ih hm hc]

/-- Canonical memories that read alike have the same entries. -/
theorem mem_of_readByte_eq {m m' : Memory} (hwf : m.wf) (hread : ∀ a : Word, m.readByte a = m'.readByte a) {c : Host.Cell}
    (hc : c ∈ m) : c ∈ m' := by
  obtain ⟨hrising, hentries⟩ := hwf
  obtain ⟨hcap, hlisted⟩ : c.1 < 4096 ∧ c.2 ≠ Config.unlistedByte := hentries c hc
  have haddr : (BitVec.ofNat 16 c.1).toNat = c.1 := Nat.mod_eq_of_lt (by omega)
  have hbyte := hread (BitVec.ofNat 16 c.1)
  rw [readByte_eq m (by omega), readByte_eq m' (by omega), haddr, get_of_mem hrising hc] at hbyte
  have hget : m'.get c.1 = c.2 := (Option.some.inj hbyte).symm
  have hentry : (c.1, m'.get c.1) ∈ m' := mem_of_get_ne (hget ▸ hlisted)
  rwa [hget] at hentry

/-- The order of the entries is that of their addresses, in which no list can hold the same entries in two ways. -/
theorem eq_of_readByte_eq {m m' : Memory} (hm : m.wf) (hm' : m'.wf) (hread : ∀ a : Word, m.readByte a = m'.readByte a) :
    m = m' := by
  have hirrefl : Std.Irrefl fun c d : Host.Cell => c.1 < d.1 := ⟨fun c => Nat.lt_irrefl c.1⟩
  have hasymm : Std.Antisymm fun c d : Host.Cell => c.1 < d.1 := ⟨fun _ _ h h' => absurd h' (Nat.lt_asymm h)⟩
  exact hm.1.eq_of_mem_iff hm'.1 fun c =>
    ⟨mem_of_readByte_eq hm hread, mem_of_readByte_eq hm' fun a => (hread a).symm⟩

end Memory

end Sys2Proof.Machine

namespace Sys2Proof.Proofs

open Sys2Proof.Machine

/-- Settles O10: from 16 on both ports answer the fault, which the engine raises; below 16 the write port is a slot write. -/
theorem registerPortRejectsIndexOutOfRange : Obligations.RegisterPortRejectsIndexOutOfRange := by
  refine fun s idx v => ⟨fun hout => ?_, fun hin => ?_⟩
  · have hset := setRegister_of_le s v hout
    refine ⟨getRegister_of_le s hout, hset, ?_⟩
    rw [hset]
    exact raise_effect s _
  · rw [setRegister_of_lt s v hin]
    exact ⟨rfl, rfl⟩

/-- Settles O15: memories that read alike have the same entries, and their order is that of the addresses. -/
theorem canonicalMemoriesReadingAlikeAreEqual : Obligations.CanonicalMemoriesReadingAlikeAreEqual :=
  fun _ _ => Memory.eq_of_readByte_eq

end Sys2Proof.Proofs
end

section
/-! A granted step whole (40_step_cycle R110 to R123): it runs the decoded instruction, hands its own result over, always goes on,
and runs on to the next instruction unless the one it runs jumps or halts (45_control R207). -/

namespace Sys2Proof.Machine

variable {s t u : State} {i : Instr} {w : Word}

/-! ### The step that runs an instruction -/

/-- A step is the fetched instruction's effect in the advanced state, handed over and answered. -/
theorem step_of_exec (hs : s.Steps) (hw : s.mem.readWord s.pc = some w)
    (hexec : exec (decodeWord w) s.afterPop.advance = .next u) :
    step s = .next { u.handOver with answer := s.answerAfterStep } := by
  rw [step_of_fetch hs hw, hexec]
  rfl

/-- A word read is its two bytes joined (20_memory R53, R57). -/
theorem Memory.readWord_of_readByte {m : Memory} {a : Word} {hi lo : Byte} (ha : a.toNat ≤ 4094) (hhi : m.readByte a = some hi)
    (hlo : m.readByte (a + 1) = some lo) : m.readWord a = some (wordOfBytes hi lo) := by
  rw [readByte_eq m (by omega)] at hhi
  rw [readByte_succ m ha] at hlo
  rw [readWord_eq m ha, Option.some.inj hhi, Option.some.inj hlo]

/-- Every step ends by handing over the state it produced, one that faulted too (40_step_cycle R122). -/
theorem step_handsOver (hs : s.Steps) (ht : step s = .next t) :
    ∃ u : State, t = { u.handOver with answer := s.answerAfterStep } := by
  rcases step_cases hs ht with ⟨_, ht⟩ | ⟨_, u, _, _, ht⟩
  · exact ⟨_, ht⟩
  · exact ⟨u, ht⟩

/-! ### Going on -/

theorem onNext_goesOn {o : Host.Outcome State Fault Refusal} (h : ∃ t, o = .next t) (f : State → State) :
    ∃ t, onNext o f = .next t := by
  obtain ⟨t, rfl⟩ := h
  exact ⟨f t, rfl⟩

theorem engineStep_goesOn (s : State) : ∃ t, engineStep s = .next t := by
  rcases Nat.lt_or_ge 4094 s.pc.toNat with hout | hin
  · exact ⟨_, engineStep_outOfRange hout⟩
  · rw [engineStep_inRange hin]
    exact onNext_goesOn (exec_goesOn _ _) _

/-- Every grant goes on: those that perform a `Step()` by the engine's step, the others by what they write (70_reset R262). -/
theorem grant_goesOn (r : Request) (s : State) : ∃ t, grant r s = .next t := by
  cases r with
  | startRun | pause | reset | loadProgram | getSnapshot => exact ⟨_, rfl⟩
  | tick =>
    by_cases hmode : s.mode = .running
    · rw [grant, grantTick_running hmode]
      exact engineStep_goesOn s
    · exact ⟨s, grantTick_idle hmode⟩
  | stepOnce =>
    by_cases hmode : s.mode = .halted
    · exact ⟨_, grantStepOnce_halted hmode⟩
    · rw [grant, grantStepOnce_runs hmode]
      exact onNext_goesOn (engineStep_goesOn s) _

/-! ### Sequential steps -/

/-- Only a jump moves the program counter while it executes: slot 15 is not listed for the others, and a BZ not taken leaves it
(44_control_transfer R175). -/
theorem exec_pc_of_not_jumpsIn (h : exec i s = .next t) (hjump : ¬ JumpsIn i s) : t.pc = s.pc := by
  by_cases hslot : Config.pcIdx ∈ i.slotsWritten
  · have huntaken : ¬ ∀ ra imm8, i = .bz ra imm8 → s.x ra = 0 := fun htaken => hjump ⟨hslot, htaken⟩
    push Not at huntaken
    obtain ⟨ra, imm8, rfl, hnonzero⟩ := huntaken
    cases (exec_bz_notTaken imm8 hnonzero).symm.trans h
    rfl
  · exact exec_x_of_notMem h hslot

/-- An instruction that does not leave the engine Halted has not touched the mode. -/
theorem exec_mode_of_not_halted (h : exec i s = .next t) (hmode : t.mode ≠ .halted) : t.mode = s.mode := by
  rcases exec_cases h with ⟨_, hkept, _⟩ | ⟨_, rfl⟩ | ⟨_, _, rfl⟩
  · exact hkept
  · exact absurd rfl hmode
  · exact absurd rfl hmode

/-- A sequential step advances the program counter by 2, keeps the mode and takes its request off the schedule. -/
theorem step_of_stepsSequentially (hs : s.Steps) (hseq : s.StepsSequentially) :
    ∃ t, step s = .next t ∧ t.pc = s.pc + 2 ∧ t.mode = s.mode ∧ t.schedule = s.schedule.tail := by
  obtain ⟨w, hw, hjump, hgoes⟩ := hseq
  obtain ⟨u, hexec⟩ := exec_goesOn (decodeWord w) s.advance
  have hpop : exec (decodeWord w) s.afterPop.advance = .next u.afterPop := by
    have hafter := exec_afterPop (decodeWord w) s.advance
    rwa [hexec] at hafter
  have hpc : u.pc = s.pc + 2 := (exec_pc_of_not_jumpsIn hexec hjump).trans (advance_pc s)
  have hmode : u.mode = s.advance.mode := exec_mode_of_not_halted hexec (hgoes u hexec)
  obtain ⟨_, _, hschedule⟩ := exec_sameHostSide hexec
  exact ⟨_, step_of_exec hs hw hpop, hpc, hmode, congrArg List.tail hschedule⟩

end Sys2Proof.Machine

namespace Sys2Proof.Proofs

open Sys2Proof.Machine

/-- Settles O37: the two bytes are the word the fetch reads, and decoding them is decoding that word. -/
theorem stepRunsTheDecodedInstruction : Obligations.StepRunsTheDecodedInstruction := by
  intro s t b0 b1 i hs hpc hhi hlo hdec _ hexec
  have hfetch := Memory.readWord_of_readByte hpc hhi hlo
  cases (decode_cons_cons b0 b1 []).symm.trans hdec
  exact step_of_exec hs hfetch hexec

/-- Settles O41: the snapshot handed over is taken of the state the step leaves but for its answer, which no snapshot shows. -/
theorem stepHandsOverItsOwnResult : Obligations.StepHandsOverItsOwnResult := by
  intro s t hs ht
  obtain ⟨u, rfl⟩ := step_handsOver hs ht
  exact ⟨u.snapshot, rfl, rfl, rfl, rfl, rfl, fun _ => rfl, snapshot_window_length u, snapshot_window_byte u⟩

/-- Settles O42: every instruction goes on, so every grant does. -/
theorem everyInstructionAndStepGoesOn : Obligations.EveryInstructionAndStepGoesOn :=
  ⟨exec_goesOn, fun s => grant_goesOn s.nextRequest s.afterPop⟩

/-- Settles O60, by induction on the number of requests: the first step is sequential, and the run after it is that of the rest. -/
theorem stepOnceRequestsAdvanceByTwoEach : Obligations.StepOnceRequestsAdvanceByTwoEach := by
  intro n s rest hmode hsched hseq
  induction n generalizing s with
  | zero => exact ⟨s, rfl, (BitVec.add_zero s.pc).symm, rfl, hsched⟩
  | succ n ih =>
    rw [List.replicate_succ, List.cons_append] at hsched
    have hreq : s.nextRequest = .stepOnce := by rw [State.nextRequest, hsched, List.headD_cons]
    obtain ⟨t, hstep, hpc, hmode', hsched'⟩ :=
      step_of_stepsSequentially (.inr ⟨hreq, hmode⟩) (hseq 0 s n.succ_pos rfl)
    rw [hsched, List.tail_cons] at hsched'
    have hseq' (k : Nat) (u : State) (hk : k < n) (hrun : Host.Core.run core k t = .next u) : u.StepsSequentially :=
      hseq (k + 1) u (Nat.succ_lt_succ hk) ((run_succ_of_next hstep k).trans hrun)
    obtain ⟨v, hrun, hvpc, hvmode, hvsched⟩ := ih t (hmode' ▸ hmode) hsched' hseq'
    refine ⟨v, (run_succ_of_next hstep n).trans hrun, ?_, hvmode.trans hmode', hvsched⟩
    rw [hvpc, hpc]
    bv_omega

end Sys2Proof.Proofs
end

section
/-! The invariant of the engine (60_exceptions section 4, 45_control section 4). A grant either performs a `Step()`, or writes the
mode and the answer only, or clears the report (a reset, an accepted load); each of the three keeps the invariant, and none sends an
IndexFault report. -/

namespace Sys2Proof.Machine

variable {s t u : State} {i : Instr}

/-! ### The kinds of grants -/

/-- `t` is `s` after a grant that runs no instruction and loads nothing: only the mode and the answer may be written. A
Halted engine stays Halted, and an answered snapshot is the one answered before or that of `s`. -/
def OnlyControl (s t : State) : Prop :=
  ∃ m a, t = { s.afterPop with mode := m, answer := a } ∧ (s.mode = .halted → m = .halted) ∧
    ∀ sn, a = some (.snapshot sn) → s.answer = some (.snapshot sn) ∨ sn = s.snapshot

theorem onlyControl_afterPop (s : State) : OnlyControl s s.afterPop := ⟨s.mode, s.answer, rfl, id, fun _ => .inl⟩

/-- A grant that answers something other than a snapshot and may change the mode of an engine that is not Halted. -/
theorem onlyControl_of_answer {m : Mode} {a : Answer} (hmode : s.mode = .halted → m = .halted) (ha : ∀ sn, a ≠ .snapshot sn) :
    OnlyControl s ({ s.afterPop with mode := m }.answerWith a) :=
  ⟨m, some a, rfl, hmode, fun sn hsn => absurd (Option.some.inj hsn) (ha sn)⟩

theorem onlyControl_grantStartRun (s : State) : OnlyControl s (grantStartRun s.afterPop) := by
  cases hmode : s.mode with
  | paused =>
    rw [grantStartRun_paused (s := s.afterPop) hmode]
    exact onlyControl_of_answer (by rw [hmode]; nofun) nofun
  | running =>
    rw [grantStartRun_running (s := s.afterPop) hmode]
    exact onlyControl_of_answer (m := s.mode) id nofun
  | halted =>
    rw [grantStartRun_halted (s := s.afterPop) hmode]
    exact onlyControl_of_answer (m := s.mode) id nofun

theorem onlyControl_grantPause (s : State) : OnlyControl s (grantPause s.afterPop) := by
  by_cases hmode : s.mode = .running
  · rw [grantPause_running (s := s.afterPop) hmode]
    exact onlyControl_of_answer (by rw [hmode]; nofun) nofun
  · rw [grantPause_idle (s := s.afterPop) hmode]
    exact onlyControl_of_answer (m := s.mode) id nofun

/-- Everything a grant can be, by the request and the mode it meets (45_control R190 to R205). -/
theorem step_kinds (h : step s = .next t) :
    s.Steps ∨ OnlyControl s t ∨ t = grantReset s.afterPop ∨
      ∃ bytes base, s.nextRequest = .loadProgram bytes base ∧ base.toNat + bytes.length ≤ 4096 := by
  cases hreq : s.nextRequest with
  | tick =>
    by_cases hmode : s.mode = .running
    · exact .inl (.inl ⟨hreq, hmode⟩)
    · cases (step_tick_idle hreq hmode).symm.trans h
      exact .inr (.inl (onlyControl_afterPop s))
  | startRun =>
    cases (step_startRun hreq).symm.trans h
    exact .inr (.inl (onlyControl_grantStartRun s))
  | pause =>
    cases (step_pause hreq).symm.trans h
    exact .inr (.inl (onlyControl_grantPause s))
  | stepOnce =>
    by_cases hmode : s.mode = .halted
    · cases (step_stepOnce_halted hreq hmode).symm.trans h
      exact .inr (.inl (onlyControl_of_answer (m := s.mode) id nofun))
    · exact .inl (.inr ⟨hreq, hmode⟩)
  | reset =>
    cases (step_reset hreq).symm.trans h
    exact .inr (.inr (.inl rfl))
  | loadProgram bytes base =>
    rcases Nat.lt_or_ge 4096 (base.toNat + bytes.length) with hlong | hfit
    · cases (step_loadProgram_rejected hreq hlong).symm.trans h
      exact .inr (.inl (onlyControl_of_answer (m := s.mode) id nofun))
    · exact .inr (.inr (.inr ⟨bytes, base, rfl, hfit⟩))
  | getSnapshot =>
    cases (step_getSnapshot hreq).symm.trans h
    refine .inr (.inl ⟨s.mode, _, rfl, id, fun sn hsn => .inr ?_⟩)
    cases hsn
    rfl

/-! ### Legal reports -/

theorem fetchedFrom_add_two (s : State) : s.fetchedFrom + 2 = s.pc := BitVec.sub_add_cancel s.pc 2

/-- The opcode of a row as the top digit of its word (30_encoding R82). -/
theorem encode_toNat_div (h : Laws.OpcodeNibble.Statement i) : (encode i).toNat / 4096 = i.opcode.toNat := by
  rw [← cutFields_opcode_toNat, h]

/-- A fault raised while an instruction executes names that instruction, its row and its reason (60_exceptions R222, R224). -/
theorem Raises.legalAt {f : Fault} (h : Raises s i f) : f.LegalAt s.pc := by
  have hpc := fetchedFrom_add_two s
  cases h with
  | unassignedE ignored =>
    have hop : _ = 14 := encode_toNat_div (Laws.OpcodeNibble.unassignedE ignored)
    exact ⟨hpc, by omega⟩
  | unassignedF ignored =>
    have hop : _ = 15 := encode_toNat_div (Laws.OpcodeNibble.unassignedF ignored)
    exact ⟨hpc, by omega⟩
  | @lw rd rs imm8 hout =>
    have hop : _ = 9 := encode_toNat_div (Laws.OpcodeNibble.lw rd rs imm8)
    exact ⟨hpc, by omega, by omega, hout⟩
  | @sw ra rs imm8 hout =>
    have hop : _ = 10 := encode_toNat_div (Laws.OpcodeNibble.sw ra rs imm8)
    exact ⟨hpc, by omega, by omega, hout⟩

/-- An instruction keeps the report there was or sends a legal one, and then the engine is Halted. -/
theorem exec_report (h : exec i s = .next t) :
    t.report = s.report ∨ ∃ f, t.report = some f ∧ t.mode = .halted ∧ f.LegalAt t.pc := by
  rcases exec_cases h with ⟨_, _, hkept, _⟩ | ⟨_, rfl⟩ | ⟨f, hf, rfl⟩
  · exact .inl hkept
  · exact .inl rfl
  · exact .inr ⟨f, rfl, rfl, hf.legalAt⟩

/-- So does a step; the fetch fault is the report it can send by itself (60_exceptions R223). -/
theorem step_report (hs : s.Steps) (h : step s = .next t) :
    t.report = s.report ∨ ∃ f, t.report = some f ∧ t.mode = .halted ∧ f.LegalAt t.pc := by
  rcases step_cases hs h with ⟨hpc, rfl⟩ | ⟨w, u, _, hexec, rfl⟩
  · exact .inr ⟨_, rfl, rfl, rfl, hpc⟩
  · have hu := exec_report hexec
    exact hu

/-! ### Canonical memory and consistent answers -/

theorem exec_keeps_wf (hwf : s.mem.wf) (h : exec i s = .next t) : t.mem.wf := by
  rcases exec_mem h with hmem | ⟨_, _, _, _, hstore⟩
  · rwa [hmem]
  · exact Memory.wf_writeWord hwf hstore

theorem step_keeps_wf (hs : s.Steps) (hwf : s.mem.wf) (h : step s = .next t) : t.mem.wf := by
  rcases step_cases hs h with ⟨_, rfl⟩ | ⟨w, u, _, hexec, rfl⟩
  · exact hwf
  · have hu : u.mem.wf := exec_keeps_wf (s := s.afterPop.advance) hwf hexec
    exact hu

/-- A step answers no snapshot: what stands there was answered before. -/
theorem answer_of_answerAfterStep {sn : Snapshot} (h : s.answerAfterStep = some (.snapshot sn)) :
    s.answer = some (.snapshot sn) := by
  rw [State.answerAfterStep] at h
  split at h
  · cases h
  · exact h

/-! ### Each kind of grant keeps the invariant -/

/-- No engine that performs a `Step()` is Halted (40_step_cycle R111). -/
theorem State.Steps.mode_ne_halted (hs : s.Steps) : s.mode ≠ .halted := by
  rcases hs with ⟨_, hmode⟩ | ⟨_, hmode⟩
  · rw [hmode]
    decide
  · exact hmode

/-- A report stands only while Halted. -/
theorem EngineInv.report_eq_none (hinv : EngineInv s) (hmode : s.mode ≠ .halted) : s.report = none := by
  obtain ⟨_, hreport, _⟩ := hinv
  exact Option.eq_none_iff_forall_ne_some.mpr fun f hf => hmode (hreport f hf).1

theorem EngineInv.of_steps (hinv : EngineInv s) (hs : s.Steps) (h : step s = .next t) : EngineInv t := by
  have hnone := hinv.report_eq_none hs.mode_ne_halted
  have hreport := step_report hs h
  obtain ⟨hwf, _, _, hanswer⟩ := hinv
  have hwf' := step_keeps_wf hs hwf h
  obtain ⟨u, rfl⟩ := step_handsOver hs h
  refine ⟨hwf', fun f hf => ?_, fun sn hsn => ?_, fun sn hsn => hanswer sn (answer_of_answerAfterStep hsn)⟩
  · rcases hreport with hkept | ⟨f', hf', hhalted⟩
    · cases hf.symm.trans (hkept.trans hnone)
    · cases hf.symm.trans hf'
      exact hhalted
  · cases hsn
    exact snapshot_consistent u

theorem EngineInv.of_onlyControl (hinv : EngineInv s) (h : OnlyControl s t) : EngineInv t := by
  obtain ⟨hwf, hreport, hbroadcast, hanswer⟩ := hinv
  obtain ⟨m, a, rfl, hhalted, hsnapshot⟩ := h
  refine ⟨hwf, fun f hf => ?_, hbroadcast, fun sn hsn => ?_⟩
  · obtain ⟨hmode, hlegal⟩ := hreport f hf
    exact ⟨hhalted hmode, hlegal⟩
  · rcases hsnapshot sn hsn with hbefore | rfl
    · exact hanswer sn hbefore
    · exact snapshot_consistent s

/-- A state with no report and no snapshot answered owes canonical memory and a consistent broadcast only. -/
theorem EngineInv.of_no_report (hwf : s.mem.wf) (hreport : s.report = none) (hanswer : s.answer = none ∨ s.answer = some .done)
    (hbroadcast : ∀ sn, s.broadcast = some sn → sn.Consistent) : EngineInv s := by
  refine ⟨hwf, fun f hf => ?_, hbroadcast, fun sn hsn => ?_⟩
  · cases hreport.symm.trans hf
  · rcases hanswer with hnone | hdone
    · cases hnone.symm.trans hsn
    · cases hdone.symm.trans hsn

theorem EngineInv.grantReset (hinv : EngineInv s) : EngineInv (grantReset s) := by
  obtain ⟨_, _, hbroadcast, _⟩ := hinv
  exact .of_no_report Memory.wf_reset rfl (.inr rfl) hbroadcast

theorem EngineInv.of_load {bytes : List Byte} {base : Word} (hinv : EngineInv s)
    (hreq : s.nextRequest = .loadProgram bytes base) (hfit : base.toNat + bytes.length ≤ 4096) (h : step s = .next t) :
    EngineInv t := by
  obtain ⟨hwf, _, hbroadcast, _⟩ := hinv
  cases (step_loadProgram_accepted hreq hfit).symm.trans h
  exact .of_no_report (Memory.wf_storeBytes hwf hfit) rfl (.inr rfl) hbroadcast

end Sys2Proof.Machine

namespace Sys2Proof.Proofs

open Sys2Proof.Machine

/-- Settles O46, by the kind of the grant. -/
theorem everyStepKeepsTheEngineInvariant : Obligations.EveryStepKeepsTheEngineInvariant := by
  intro s t hinv h
  rcases step_kinds h with hs | hcontrol | rfl | ⟨bytes, base, hreq, hfit⟩
  · exact hinv.of_steps hs h
  · exact hinv.of_onlyControl hcontrol
  · exact EngineInv.grantReset (s := s.afterPop) hinv
  · exact hinv.of_load hreq hfit h

/-- Settles O47: at reset memory is empty and nothing has been reported, answered or handed over. -/
theorem resetMeetsTheEngineInvariant : Obligations.ResetMeetsTheEngineInvariant :=
  .of_no_report Memory.wf_reset rfl (.inl rfl) nofun

/-- Settles O11: a report a step sends is legal, which an IndexFault is not; every other grant keeps or clears the report. -/
theorem noStepReportsIndexFault : Obligations.NoStepReportsIndexFault := by
  intro s t idx h hindex
  rcases step_kinds h with hs | ⟨_, _, rfl, _⟩ | rfl | ⟨bytes, base, hreq, hfit⟩
  · rcases step_report hs h with hkept | ⟨f, hf, _, hlegal⟩
    · exact hkept.symm.trans hindex
    · cases hf.symm.trans hindex
      exact hlegal.elim
  · exact hindex
  · cases hindex
  · cases (step_loadProgram_accepted hreq hfit).symm.trans h
    cases hindex

end Sys2Proof.Proofs
end
